-- ==== Sys2Proof/Word.lean ====
section
/-! DEFINITION. The word types of the lampfire CORE: 16-bit operation words and PRG states, 8-bit
thresholds, ROM addresses and interface values (30_encoding.md R70, 10_state.md R20). -/

namespace Sys2Proof

/-- A 16-bit value: an operation word, the LFSR, FWORD (R20, R70). -/
abbrev Word := BitVec 16

/-- An 8-bit value: a compare threshold, an interface value, a ROM address, one byte of a ROM image
(R20, R53, R55). -/
abbrev Byte := BitVec 8

end Sys2Proof
end

