-- ==== Sys2Proof/Config.lean ====
section
/-! DEFINITION. What is fixed for one machine: the constants of the reference configuration
(00_scope.md R7), the open parameter SEED (R8, R35, log entry 1) and the reference content of the
program store (42_sequencer.md R175). Values other than the reference ones are outside the spec
(92_eei_decisions.md D22, 93 I12), so the constants are plain definitions. -/

namespace Sys2Proof.Config

/-- SEED: the LFSR's value at reset. The spec leaves it OPEN over all 16-bit values, 0 included
(R8, R35, R232, D5): a constant without a body, so that nothing proved can rest on its value.
DESIGN CHOICE, log entry 1. -/
opaque seed : Word

/-- LFSR_TAPS (R7, R102): the bits of the guarded state that feed the feedback bit. -/
def lfsrTaps : List Nat := [15, 14, 12, 3]

/-- LFSR_GUARD_VALUE (R7, R101): what an all-zero state is replaced with before the shift. -/
def lfsrGuardValue : Word := 0x0001

/-- LFSR_WIDTH (R7), in bits. -/
def lfsrWidth : Nat := 16

/-- MIN_DUTY (R7): the floor of a derived duty value. -/
def minDuty : Nat := 50

/-- DUTY_MODULUS (R7): a draw is reduced modulo this to a duty value. -/
def dutyModulus : Nat := 255

/-- DUTY_MAX (R7): the largest derived duty value. -/
def dutyMax : Nat := 254

/-- MAX_DELAY_MS (R7): the modulus of the delay; delays are 0 to 49. -/
def maxDelayMs : Nat := 50

/-- CHANNEL_COUNT (R7). -/
def channelCount : Nat := 2

/-- STARTUP_SETTLE_MS (R7): the length of the reference program's first wait. -/
def startupSettleMs : Nat := 100

/-- SELFTEST_ON_MS (R7): how long the self-test keeps each channel on. -/
def selftestOnMs : Nat := 750

/-- CLOCK_HZ (R7). -/
def clockHz : Nat := 8000000

/-- PWM_PRESCALER (R7): the divisor PWMCFG's configuration stands for (R27). -/
def pwmPrescaler : Nat := 1024

/-- The PWM modes: the source configures one only (R7, R27, conflict C3). -/
inductive PwmMode where
  /-- fast (leading-edge) PWM -/
  | fastLeadingEdge
  deriving DecidableEq, Repr

/-- PWM_MODE (R7): the mode PWMCFG's configuration stands for (R27). -/
def pwmMode : PwmMode := .fastLeadingEdge

/-- COMPARE_WIDTH (R7), in bits. -/
def compareWidth : Nat := 8

/-- TICK_MS (R7): the nominal period of a tick. No rule reads it: the model counts ticks only (I5). -/
def tickMs : Nat := 1

/-- PWM_FREQUENCY_HZ (R7, R212, conflict C1) in hundredths of a hertz, for information: about
30.52 Hz. No rule reads it. -/
def pwmFrequencyCentiHz : Nat := 3052

/-- ROM_DEPTH (R8, R50): the number of words of the program store. -/
def romDepth : Nat := 256

/-- The reference content of the program store, ROM addresses 0x00 to 0x0F (R175). The order of the
two DUTY words is CHANNEL_DRAW_ORDER = (0, 1) (R8, D6), PWMCFG stands before the threshold writes
(D20). -/
def referenceProgram : List Word :=
  [0x5064, 0x8003, 0x7001, 0x52EE, 0x7000, 0x7101, 0x52EE, 0x7100,
   0x9000, 0x6032, 0x6132, 0x2000, 0x2100, 0x3000, 0x4000, 0xA00B]

/-- The reference content of every ROM address: R175's words, and 0x0000 where the program does not
fill an address (R51, R175). -/
def referenceWord (a : Nat) : Word := referenceProgram.getD a 0x0000

end Sys2Proof.Config
end

