-- ==== Sys2Proof/Syntax.lean ====
section
/-! DEFINITION. The operations of LFC-OP version 1 (30_encoding.md R71 to R74), one constructor per row
of spec/opcode_table.json, with operands of exactly the widths the encoding gives them; and the
assembly syntax of R82 and R83, whose operands are numbers of any size (WellFormed.lean checks
them). -/

namespace Sys2Proof

/-- A channel number, 0 or 1 (R13, R71 field c). -/
inductive Channel where
  | ch0
  | ch1
  deriving DecidableEq, Repr

/-- The ten operations (R74). -/
inductive Instr where
  /-- DRAW: advance the PRG and discard the value (R108). -/
  | draw
  /-- DUTY c: draw, reduce, clamp, write channel c's threshold (R146). -/
  | duty (c : Channel)
  /-- RDLY: draw and derive the cycle delay (R148). -/
  | rdly
  /-- WAITD: wait out the derived delay (R150). -/
  | waitd
  /-- WAITMS n: wait a fixed number of ticks (R151). -/
  | waitms (n : BitVec 12)
  /-- OCRW c, imm8: write a fixed threshold (R152). -/
  | ocrw (c : Channel) (imm8 : Byte)
  /-- ENSET c, v: set or clear a channel's enable (R154). -/
  | enset (c : Channel) (v : Bool)
  /-- DIRSET m: set the direction controls (R156). -/
  | dirset (m : BitVec 2)
  /-- PWMCFG: configure the PWM peripheral (R158). -/
  | pwmcfg
  /-- JMP t: jump to an absolute ROM address (R160). -/
  | jmp (t : Byte)
  deriving DecidableEq, Repr

/-- A name or a piece of source text of the assembler. -/
abbrev Text := List Char

/-- What may stand where an address is expected: a number or a label (R82). -/
inductive AsmTarget where
  | addr (t : Nat)
  | label (name : Text)
  deriving DecidableEq, Repr

/-- The operations as the assembler writes them: R82's ten forms and R83's six pseudo-instructions.
Operands are numbers as written, not yet checked for their range. -/
inductive AsmOp where
  | draw
  | duty (c : Nat)
  | rdly
  | waitd
  | waitms (n : Nat)
  | ocrw (c n : Nat)
  | enset (c v : Nat)
  | dirset (m : Nat)
  | pwmcfg
  | jmp (t : AsmTarget)
  | nop
  | on (c : Nat)
  | off (c : Nat)
  | floor (c : Nat)
  | driveAll
  | stop
  deriving DecidableEq, Repr

/-- A source line (R82): an optional label and an optional operation (a comment is gone once the
line is read), or `.org a`. -/
inductive AsmLine where
  | line (label : Option Text) (op : Option AsmOp)
  | org (a : Nat)
  deriving DecidableEq, Repr

end Sys2Proof
end

