-- ==== Sys2Proof/WellFormed.lean ====
section
/-! DEFINITION. When an operation as written is well formed: every operand within its range; "An operand
outside its range is an assembly error; the assembler never truncates it" (30_encoding.md R82). The
operands of Instr have the encoding's own widths, so every Instr is well formed
(Laws/Decode.lean, wellFormed_all). -/

namespace Sys2Proof

/-- The number a channel is written as (R71). -/
def Channel.toNat : Channel → Nat
  | .ch0 => 0
  | .ch1 => 1

/-- R82's range of each operand: channels 0 and 1, WAITMS 0 to 4095, OCRW 0 to 255, ENSET's value 0
or 1, DIRSET 0 to 3, JMP 0 to 255 or a label. -/
def AsmOp.wellFormed : AsmOp → Bool
  | .draw => true
  | .duty c => decide (c < 2)
  | .rdly => true
  | .waitd => true
  | .waitms n => decide (n < 4096)
  | .ocrw c n => decide (c < 2) && decide (n < 256)
  | .enset c v => decide (c < 2) && decide (v < 2)
  | .dirset m => decide (m < 4)
  | .pwmcfg => true
  | .jmp (.addr t) => decide (t < 256)
  | .jmp (.label _) => true
  | .nop => true
  | .on c => decide (c < 2)
  | .off c => decide (c < 2)
  | .floor c => decide (c < 2)
  | .driveAll => true
  | .stop => true

/-- An operation written out in R82's syntax, every operand as its number. -/
def Instr.toAsm : Instr → AsmOp
  | .draw => .draw
  | .duty c => .duty c.toNat
  | .rdly => .rdly
  | .waitd => .waitd
  | .waitms n => .waitms n.toNat
  | .ocrw c n => .ocrw c.toNat n.toNat
  | .enset c v => .enset c.toNat v.toNat
  | .dirset m => .dirset m.toNat
  | .pwmcfg => .pwmcfg
  | .jmp t => .jmp (.addr t.toNat)

/-- An operation is well formed when, written out, every operand is in its range (R82). -/
def Instr.wellFormed (i : Instr) : Bool := i.toAsm.wellFormed

end Sys2Proof
end

