-- ==== Sys2Proof/Decode.lean ====
section
/-! DEFINITION. The encoding of 30_encoding.md: the fields of a word (R71), the opcode map (R74), the
total decoder (R75) that rejects by name (R76, R77), the decoder over a byte sequence (R55's layout),
and the encoder (R72). -/

namespace Sys2Proof

/-- Why a word spells no operation. -/
inductive IllegalReason where
  /-- An unassigned opcode, 0x0 or 0xB to 0xF (R77). -/
  | unassignedOpcode (op : BitVec 4)
  /-- An assigned opcode with a 1 in a must-be-zero bit (R76). -/
  | reservedBitSet (op : BitVec 4)
  /-- Fewer than two bytes: not a whole word (R70). -/
  | truncated
  deriving DecidableEq, Repr

/-- The result of decoding: one operation, or ILLEGAL with its reason (R75). -/
inductive Decoded where
  | op (i : Instr)
  | illegal (why : IllegalReason)
  deriving DecidableEq, Repr

/-- Field op, w[15:12] (R71). -/
def fieldOp (w : Word) : BitVec 4 := w.extractLsb' 12 4

/-- Field c, w[8] (R71, R73). -/
def fieldC (w : Word) : Channel := bif w.getLsbD 8 then .ch1 else .ch0

/-- Fields imm8 and t, w[7:0] (R71). -/
def fieldImm8 (w : Word) : Byte := w.extractLsb' 0 8

/-- Field v, w[0] (R71). -/
def fieldV (w : Word) : Bool := w.getLsbD 0

/-- Field m, w[1:0] (R71). -/
def fieldM (w : Word) : BitVec 2 := w.extractLsb' 0 2

/-- Field imm12, w[11:0] (R71). -/
def fieldImm12 (w : Word) : BitVec 12 := w.extractLsb' 0 12

/-- An operation if its must-be-zero bits are zero, else ILLEGAL (R75, R76). -/
def whenZero (op : BitVec 4) (zero : Bool) (i : Instr) : Decoded :=
  bif zero then .op i else .illegal (.reservedBitSet op)

/-- R75's decode, line by line: total on every 16-bit word. -/
def decodeWord (w : Word) : Decoded :=
  match (fieldOp w).toNat with
  | 0x1 => whenZero (fieldOp w) (w.extractLsb' 0 12 == 0#12) .draw
  | 0x2 => whenZero (fieldOp w) (w.extractLsb' 9 3 == 0#3 && w.extractLsb' 0 8 == 0#8) (.duty (fieldC w))
  | 0x3 => whenZero (fieldOp w) (w.extractLsb' 0 12 == 0#12) .rdly
  | 0x4 => whenZero (fieldOp w) (w.extractLsb' 0 12 == 0#12) .waitd
  | 0x5 => .op (.waitms (fieldImm12 w))
  | 0x6 => whenZero (fieldOp w) (w.extractLsb' 9 3 == 0#3) (.ocrw (fieldC w) (fieldImm8 w))
  | 0x7 => whenZero (fieldOp w) (w.extractLsb' 9 3 == 0#3 && w.extractLsb' 1 7 == 0#7) (.enset (fieldC w) (fieldV w))
  | 0x8 => whenZero (fieldOp w) (w.extractLsb' 2 10 == 0#10) (.dirset (fieldM w))
  | 0x9 => whenZero (fieldOp w) (w.extractLsb' 0 12 == 0#12) .pwmcfg
  | 0xA => whenZero (fieldOp w) (w.extractLsb' 8 4 == 0#4) (.jmp (fieldImm8 w))
  | _ => .illegal (.unassignedOpcode (fieldOp w))

/-- A word as two bytes of a ROM image, low byte first (R55, D12). -/
def wordBytes (w : Word) : List Byte := [w.extractLsb' 0 8, w.extractLsb' 8 8]

/-- The word two bytes of a ROM image make, low byte first (R55, D12). -/
def wordOfBytes (lo hi : Byte) : Word := hi ++ lo

/-- Decoding a byte sequence: its first word alone (R70: one length, no prefix). -/
def decode : List Byte → Decoded
  | lo :: hi :: _ => decodeWord (wordOfBytes lo hi)
  | _ => .illegal .truncated

/-- The channel bit of a word (R71). -/
def Channel.bit : Channel → BitVec 1
  | .ch0 => 0
  | .ch1 => 1

/-- The word of an operation, format by format (R72). -/
def encode : Instr → Word
  | .draw => 0x1#4 ++ 0#12
  | .duty c => 0x2#4 ++ 0#3 ++ c.bit ++ 0#8
  | .rdly => 0x3#4 ++ 0#12
  | .waitd => 0x4#4 ++ 0#12
  | .waitms n => 0x5#4 ++ n
  | .ocrw c n => 0x6#4 ++ 0#3 ++ c.bit ++ n
  | .enset c v => 0x7#4 ++ 0#3 ++ c.bit ++ 0#7 ++ BitVec.ofBool v
  | .dirset m => 0x8#4 ++ 0#10 ++ m
  | .pwmcfg => 0x9#4 ++ 0#12
  | .jmp t => 0xA#4 ++ 0#4 ++ t

/-- The opcode map's row (R74) of each operation: match and mask. A word w is that operation when
`(w & mask) == match`. -/
def opcodeMatchMask : Instr → Word × Word
  | .draw => (0x1000, 0xFFFF)
  | .duty _ => (0x2000, 0xFEFF)
  | .rdly => (0x3000, 0xFFFF)
  | .waitd => (0x4000, 0xFFFF)
  | .waitms _ => (0x5000, 0xF000)
  | .ocrw _ _ => (0x6000, 0xFE00)
  | .enset _ _ => (0x7000, 0xFEFE)
  | .dirset _ => (0x8000, 0xFFFC)
  | .pwmcfg => (0x9000, 0xFFFF)
  | .jmp _ => (0xA000, 0xFF00)

/-- R74's test of a word against the row of an operation. -/
def matchesRow (w : Word) (i : Instr) : Bool := (w &&& (opcodeMatchMask i).2) == (opcodeMatchMask i).1

/-- The operation a row of spec/opcode_table.json decodes to: the row's bits, laid out as a ROM image
stores them, given to the decoder. The longest operation is one word, so no bit above 15 counts. -/
def decodeTableWord (nbits w : Nat) : Option Instr :=
  match decode (wordBytes (BitVec.ofNat 16 (w % 2 ^ nbits))) with
  | .op i => some i
  | .illegal _ => none

end Sys2Proof
end

