-- ==== Sys2Proof/Machine/State.lean ====
section
/-! DEFINITION. The state of the lampfire CORE as plain data (10_state.md R20 to R34), the output history
the model appends to (20_memory.md R54), the ROM parameter the fetch reads (R51), the reasons a step
stops, and the state after reset (R35, R230). -/

namespace Sys2Proof.Machine

/-- One thing per channel; the two channels share nothing but the LFSR (R37). -/
structure PerChannel (α : Type) where
  ch0 : α
  ch1 : α
  deriving DecidableEq, Repr

/-- A compare threshold OCR[c] (R24). That it "holds no value" until its first write is a state the spec
itself gives the register (R24, R35, D11); no operation reads it (R36). Log entry 2. -/
inductive Threshold where
  /-- Not written since reset: no value (R35). -/
  | unwritten
  /-- THRESHOLD[7:0], any value 0 to 255 (R24). -/
  | written (v : Byte)
  deriving DecidableEq, Repr

/-- The five registers of the register write interface (R53). -/
inductive IfReg where
  | ocr0
  | ocr1
  | outen
  | dir
  | pwmctl
  deriving DecidableEq, Repr

/-- One entry of the output history: an interface write (R54), a tick a wait consumed (R142), or a fault
(R202). -/
inductive Event where
  | wr (reg : IfReg) (v : Byte)
  | tick
  | fault (pc : Byte) (w : Word)
  deriving DecidableEq, Repr

/-- Why a step or an observation stops. -/
inductive Fault where
  /-- Raised by `step` in the FAULTED phase, whose record names ILLEGAL_OP: the faulted state is stuck and
  no step is enabled until reset (R143, R203). Safe: the hardware goes on in no way. -/
  | stuckIllegalOp
  /-- Raised by `step` in the FAULTED phase when FCAUSE holds anything but ILLEGAL_OP's code, which no run
  reaches: "A model that finds one in FCAUSE has a bug: `fault`" (93 I9). Safe. -/
  | reservedCause
  /-- Raised by an observation of a lamp output that would read OCR[c] before its first write (R58, R240,
  93 I2); no step raises it. Safe. -/
  | thresholdUnwritten
  deriving DecidableEq, Repr

/-- Why the model gives no meaning. -/
inductive Refusal where
  /-- An arm of exec whose instruction has no meaning yet; no arm is left so. Safe. -/
  | notModelled (mnemonic : String)
  /-- Raised by the lookup of an interface register by its id, for ids 5 to 255, which are no registers
  and which no operation can name (R53, 93 I10). Safe. -/
  | noInterfaceRegister (id : Byte)
  deriving DecidableEq, Repr

/-- The sequencer's phase, derived from the state and not stored (R33). -/
inductive Phase where
  | faulted
  | waiting
  | ready
  deriving DecidableEq, Repr

/-- All of the block's state (R20), the ROM parameter (R34, R51) and the output history (R54). -/
structure State where
  /-- The ROM parameter, as the bytes of its image (R55) that differ from the reference content (R175);
  no step writes it (R52). Log entries 3 and 4. -/
  rom : List Host.Cell
  /-- LFSR: the PRG state (R21). -/
  lfsr : Word
  /-- OCR[0], OCR[1]: compare thresholds (R24). -/
  ocr : PerChannel Threshold
  /-- DIR[0], DIR[1]: output-enable/direction controls (R25). -/
  dir : PerChannel Bool
  /-- EN[0], EN[1]: channel enables (R26). -/
  en : PerChannel Bool
  /-- PWM_ON: the PWM has been configured (R27). -/
  pwmOn : Bool
  /-- DLY: the last derived cycle delay (R28). -/
  dly : BitVec 6
  /-- WCNT: the ticks left in the wait in progress (R29). -/
  wcnt : BitVec 12
  /-- PC: the ROM address of the next operation word (R30). -/
  pc : Byte
  /-- FAULT: the sequencer is halted by a fault (R31). -/
  fault : Bool
  /-- FCAUSE: the cause code (R31, R201). -/
  fcause : BitVec 4
  /-- FWORD: the operation word that faulted (R31). -/
  fword : Word
  /-- The output history, oldest event first (R54, R62). -/
  history : List Event
  deriving DecidableEq, Repr

/-- The state after reset with a given SEED and ROM parameter (R35, R230): PC at the entry point 0x00,
thresholds unwritten, the history empty, everything else 0. -/
def State.powerOn (seed : Word) (rom : List Host.Cell) : State where
  rom := rom
  lfsr := seed
  ocr := ⟨.unwritten, .unwritten⟩
  dir := ⟨false, false⟩
  en := ⟨false, false⟩
  pwmOn := false
  dly := 0
  wcnt := 0
  pc := 0x00
  fault := false
  fcause := 0
  fword := 0x0000
  history := []

/-- The state after reset: SEED is the open parameter (R35, log entry 1), the ROM holds its reference
content (R175), so no byte of it is listed (log entry 3). -/
def State.reset : State := State.powerOn Config.seed []

end Sys2Proof.Machine
end

