-- ==== Sys2Proof/Machine/Flags.lean ====
section
/-! DEFINITION. The status of the sequencer. The block has no condition codes, status flags or predicates
apart from FAULT (10_state.md R32), and no operation computes one: what stands here is the cause codes
(60_exceptions.md R201), the phase (R33) and the reason a FAULTED sequencer is stuck (R203). -/

namespace Sys2Proof.Machine

/-- FCAUSE code 0, none (R201). -/
def causeNone : BitVec 4 := 0

/-- FCAUSE code 1, ILLEGAL_OP (R201). -/
def causeIllegalOp : BitVec 4 := 1

/-- The phase (R33): FAULTED if FAULT is set, else WAITING if WCNT is not 0, else READY. -/
def phase (s : State) : Phase :=
  if s.fault then .faulted else if s.wcnt = 0 then .ready else .waiting

/-- What a stuck sequencer's fault record says (R203; a reserved cause is a bug, 93 I9). -/
def stuckReason (s : State) : Fault :=
  if s.fcause = causeIllegalOp then .stuckIllegalOp else .reservedCause

end Sys2Proof.Machine
end

