-- ==== Sys2Proof/Machine/Operands.lean ====
section
/-! DEFINITION. The operand forms (30_encoding.md R73). Every operand is zero-extended and none is scaled,
shifted or signed: a channel number selects one of two registers, a mask gives each channel a bit, and
immediates, wait lengths and jump targets are used as they stand. -/

namespace Sys2Proof.Machine

/-- The register of channel c (R73: `c` selects `OCR[c]` or `EN[c]`). -/
def PerChannel.get {α : Type} (p : PerChannel α) : Channel → α
  | .ch0 => p.ch0
  | .ch1 => p.ch1

/-- Writing the register of channel c; the other channel's is kept (R37, R154). -/
def PerChannel.set {α : Type} (p : PerChannel α) (c : Channel) (v : α) : PerChannel α :=
  match c with
  | .ch0 => { p with ch0 := v }
  | .ch1 => { p with ch1 := v }

/-- The direction mask: bit 0 for channel 0, bit 1 for channel 1 (R71 field m, R73). -/
def maskChannels (m : BitVec 2) : PerChannel Bool := ⟨m.getLsbD 0, m.getLsbD 1⟩

/-- Two channel bits as an interface register: channel 0 in bit 0, channel 1 in bit 1, bits [7:2]
hardwired 0 (R25, R26, R53). -/
def pairByte (p : PerChannel Bool) : Byte :=
  (BitVec.ofBool p.ch1 ++ BitVec.ofBool p.ch0).setWidth 8

/-- One bit as an interface register: the bit in bit 0, bits [7:1] hardwired 0 (R27, R53). -/
def bitByte (b : Bool) : Byte := (BitVec.ofBool b).setWidth 8

/-- The interface register of channel c's threshold: id 0 for channel 0, id 1 for channel 1 (R53, R146). -/
def ocrReg : Channel → IfReg
  | .ch0 => .ocr0
  | .ch1 => .ocr1

/-- `zext_12(DLY)` (R150). -/
def delayTicks (dly : BitVec 6) : BitVec 12 := dly.setWidth 12

end Sys2Proof.Machine
end

