-- ==== Sys2Proof/Machine/Ops.lean ====
section
/-! DEFINITION. The named operations over the ROM, the registers, the register write interface and the
output history; taking the fault ILLEGAL_OP (60_exceptions.md R202), from which no operation returns
(R205); and reset, the one event that leaves the faulted state (70_reset_and_hazards.md R230). -/

namespace Sys2Proof.Machine

/-! ### The ROM: 256 words, held as the 512 bytes of its image (R50, R51, R55) -/

/-- The number of bytes of the ROM image: two a word (R50, R55). -/
def romBytes : Nat := 2 * Config.romDepth

/-- One byte of a word of the image: byte 0 is bits [7:0], byte 1 bits [15:8] (R55). -/
def imageByte (w : Word) (n : Nat) : Byte := (wordBytes w).getD n 0

/-- What an unlisted byte reads as: the reference content of the ROM (R175), whose unfilled addresses hold
0x0000 (R51). Log entry 3. -/
def unlistedByte (a : Nat) : Byte := imageByte (Config.referenceWord (a / 2)) (a % 2)

/-- Reading one byte of the ROM image. -/
def readByte : List Host.Cell → Nat → Byte
  | [], a => unlistedByte a
  | (k, b) :: m, a => if a = k then b else readByte m a

/-- Putting one byte into the image, keeping the canonical form. Used to load a ROM parameter; no
operation writes the ROM (R52). -/
def writeByte : List Host.Cell → Nat → Byte → List Host.Cell
  | [], a, v => if v = unlistedByte a then [] else [(a, v)]
  | (k, b) :: m, a, v =>
    if a < k then (if v = unlistedByte a then (k, b) :: m else (a, v) :: (k, b) :: m)
    else if a = k then (if v = unlistedByte a then m else (a, v) :: m)
    else (k, b) :: writeByte m a v

/-- The canonical form from address `lo` on: addresses strictly rising and within the ROM, no entry equal
to what an unlisted address reads as. -/
def canonicalFrom : Nat → List Host.Cell → Bool
  | _, [] => true
  | lo, (k, b) :: m =>
    decide (lo ≤ k) && decide (k < romBytes) && !(b == unlistedByte k) && canonicalFrom (k + 1) m

/-- A ROM image in canonical form: equal contents are equal lists. -/
def Memory.wf (m : List Host.Cell) : Bool := canonicalFrom 0 m

/-- `RomRead(a)` (R51): the whole word at ROM address a, bytes 2a and 2a + 1 of the image (R55). -/
def romRead (m : List Host.Cell) (a : Byte) : Word :=
  wordOfBytes (readByte m (2 * a.toNat)) (readByte m (2 * a.toNat + 1))

/-- Loading the word at ROM address a (R55's layout). -/
def loadWord (m : List Host.Cell) (a : Byte) (w : Word) : List Host.Cell :=
  writeByte (writeByte m (2 * a.toNat) (imageByte w 0)) (2 * a.toNat + 1) (imageByte w 1)

/-- The word a program (ROM address and word, in any order, the first entry of an address counting) puts
at an address: 0x0000 where it fills none (R51). -/
def programWord : List (Nat × Word) → Nat → Word
  | [], _ => 0x0000
  | (k, w) :: p, a => if a = k then w else programWord p a

/-- The ROM parameter that holds a given program and 0x0000 everywhere else (R8, R51), in canonical form. -/
def romOfProgram (p : List (Nat × Word)) : List Host.Cell :=
  (List.range romBytes).filterMap fun a =>
    let b := imageByte (programWord p (a / 2)) (a % 2)
    if b = unlistedByte a then none else some (a, b)

/-! ### Register writes -/

/-- `LFSR <- n` (R21). -/
def setLfsr (n : Word) (s : State) : State := { s with lfsr := n }

/-- `OCR[c] <- v` (R24). -/
def setOcr (c : Channel) (v : Byte) (s : State) : State := { s with ocr := s.ocr.set c (.written v) }

/-- `DIR[0] <- m[0]`, `DIR[1] <- m[1]` (R156). -/
def setDir (d : PerChannel Bool) (s : State) : State := { s with dir := d }

/-- `EN[c] <- v` (R26). -/
def setEn (c : Channel) (v : Bool) (s : State) : State := { s with en := s.en.set c v }

/-- `PWM_ON <- 1` (R158); no operation clears it (R27). -/
def setPwmOn (s : State) : State := { s with pwmOn := true }

/-- `DLY <- d` (R28). -/
def setDly (d : BitVec 6) (s : State) : State := { s with dly := d }

/-- `WCNT <- n` (R29). -/
def setWcnt (n : BitVec 12) (s : State) : State := { s with wcnt := n }

/-- `PC <- t` (R160). -/
def setPc (t : Byte) (s : State) : State := { s with pc := t }

/-- `PC <- (PC + 1) mod 256` (R30). -/
def advancePc (s : State) : State := setPc (s.pc + 1) s

/-! ### The register write interface and the output history -/

/-- An event at the end of the output history (R54). -/
def record (e : Event) (s : State) : State := { s with history := s.history ++ [e] }

/-- `emit Wr(reg, v)` (R54): one write event, carrying the register's whole new value. -/
def emit (reg : IfReg) (v : Byte) (s : State) : State := record (.wr reg v) s

/-- A register's id (R53). -/
def ifRegId : IfReg → Byte
  | .ocr0 => 0
  | .ocr1 => 1
  | .outen => 2
  | .dir => 3
  | .pwmctl => 4

/-- The register with a given id; ids 5 to 255 are not registers (R53, 93 I10). -/
def ifRegOfId (id : Byte) : Except Refusal IfReg :=
  match id.toNat with
  | 0 => .ok .ocr0
  | 1 => .ok .ocr1
  | 2 => .ok .outen
  | 3 => .ok .dir
  | 4 => .ok .pwmctl
  | _ => .error (.noInterfaceRegister id)

/-- The value a threshold holds, if it has been written (R24). -/
def Threshold.value : Threshold → Option Byte
  | .unwritten => none
  | .written v => some v

/-- What an interface register holds (R53): the thresholds once written, the channel bits of OUTEN and DIR,
PWM_ON in PWMCTL. The block itself never reads the interface (R57). -/
def ifRegValue (s : State) : IfReg → Option Byte
  | .ocr0 => s.ocr.ch0.value
  | .ocr1 => s.ocr.ch1.value
  | .outen => some (pairByte s.en)
  | .dir => some (pairByte s.dir)
  | .pwmctl => some (bitByte s.pwmOn)

/-- What an interface register holds after reset (R53): no value for the thresholds, 0 for the others. -/
def ifRegReset : IfReg → Option Byte
  | .ocr0 => none
  | .ocr1 => none
  | .outen => some 0
  | .dir => some 0
  | .pwmctl => some 0

/-- What the external capability holds of a register after a history: the last value written to it, else
what it holds after reset (R54, R62). -/
def replay (reg : IfReg) (h : List Event) : Option Byte :=
  h.foldl (fun held e => if let .wr r v := e then (if r = reg then some v else held) else held) (ifRegReset reg)

/-! ### The fault and reset -/

/-- `raise Fault(ILLEGAL_OP, w)` (R202): FAULT, FCAUSE and FWORD are written and the fault is recorded;
everything else keeps its value, PC the address of the faulting word. -/
def raiseIllegalOp (w : Word) (s : State) : State :=
  record (.fault s.pc w) { s with fault := true, fcause := causeIllegalOp, fword := w }

/-- The reset event (R230): every piece of state at its value after reset and the history empty; the ROM is
not changed. No operation returns from a fault, and only this leaves the faulted state (R205). -/
def resetEvent (s : State) : State := State.powerOn Config.seed s.rom

end Sys2Proof.Machine
end

