-- ==== Sys2Proof/Machine/Control.lean ====
section
/-! DEFINITION. Control transfer: JMP, the only form the block has (42_sequencer.md R160, R161). -/

namespace Sys2Proof.Machine

/-- JMP t (R160): `PC <- t`; an ILLEGAL word at the target faults in the next step, not here. -/
def execJmp (t : Byte) (s : State) : Host.Outcome State Fault Refusal := .next (setPc t s)

end Sys2Proof.Machine
end

