-- ==== Sys2Proof/Machine/Interface.lean ====
section
/-! DEFINITION. The operations that write the register interface without a draw (42_sequencer.md R152 to
R158). -/

namespace Sys2Proof.Machine

/-- OCRW c, imm8 (R152): write a fixed threshold, any value 0 to 255. -/
def execOcrw (c : Channel) (imm8 : Byte) (s : State) : Host.Outcome State Fault Refusal :=
  .next (advancePc (emit (ocrReg c) imm8 (setOcr c imm8 s)))

/-- ENSET c, v (R154): the write carries both channels' bits after the update. -/
def execEnset (c : Channel) (v : Bool) (s : State) : Host.Outcome State Fault Refusal :=
  let s' := setEn c v s
  .next (advancePc (emit .outen (pairByte s'.en) s'))

/-- DIRSET m (R156): both direction bits are written (D28). -/
def execDirset (m : BitVec 2) (s : State) : Host.Outcome State Fault Refusal :=
  .next (advancePc (emit .dir (m.setWidth 8) (setDir (maskChannels m) s)))

/-- PWMCFG (R158): mode PWM_MODE and divider PWM_PRESCALER are constants, so PWM_ON is all it writes. -/
def execPwmcfg (s : State) : Host.Outcome State Fault Refusal :=
  .next (advancePc (emit .pwmctl 0x01 (setPwmOn s)))

end Sys2Proof.Machine
end

