-- ==== Sys2Proof/Machine/Prg.lean ====
section
/-! DEFINITION. The pseudo-random generator (40_prg.md): the zero-guard, the feedback bit, the step
function, its bit-by-bit form, and the operation DRAW. The functions read and write no state (R12). -/

namespace Sys2Proof.Machine

/-- The zero-guard (R101): state 0 is replaced by 1 before the shift. -/
def lfsrGuard (s : Word) : Word := if s = 0x0000 then Config.lfsrGuardValue else s

/-- The feedback bit of a guarded state: the exclusive-or of its taps, bits 15, 14, 12 and 3 (R102). -/
def lfsrFb (g : Word) : Bool := Config.lfsrTaps.foldl (fun f tap => f ^^ g.getLsbD tap) false

/-- The new state (R103): guard, shift left by one modulo 2^16, add the feedback bit. -/
def lfsrNext (s : Word) : Word :=
  let g := lfsrGuard s
  (g <<< 1) + (BitVec.ofBool (lfsrFb g)).setWidth 16

/-- R105's form of the same step: a left-shifting register whose serial input is the feedback bit. -/
def lfsrShiftRegister (s : Word) : Word :=
  let g := lfsrGuard s
  g.extractLsb' 0 15 ++ BitVec.ofBool (g.getLsbD 15 ^^ g.getLsbD 14 ^^ g.getLsbD 12 ^^ g.getLsbD 3)

/-- The value of the n-th draw from a state (R100, R109): the step function n times. -/
def drawn : Nat → Word → Word
  | 0, s => s
  | n + 1, s => drawn n (lfsrNext s)

/-- A draw (R100, R103): `LFSR <- lfsr_next(LFSR)`, one write, so the guard's 1 is never stored alone
(R111). -/
def draw (s : State) : State := setLfsr (lfsrNext s.lfsr) s

/-- DRAW (R108). -/
def execDraw (s : State) : Host.Outcome State Fault Refusal := .next (advancePc (draw s))

end Sys2Proof.Machine
end

