-- ==== Sys2Proof/Machine/Reduce.lean ====
section
/-! DEFINITION. The clamp-and-reduce logic (41_reduce.md), the two operations that apply it to a draw
(42_sequencer.md R146, R148), and one pass of the loop body as a pure function (R164). -/

namespace Sys2Proof.Machine

/-- `duty_of` (R120): the draw modulo 255, raised to the floor of 50. -/
def dutyOf (d : Word) : Byte :=
  let r := d.toNat % Config.dutyModulus
  BitVec.ofNat 8 (if r < Config.minDuty then Config.minDuty else r)

/-- `delay_of` (R124): the draw modulo 50; no floor. -/
def delayOf (d : Word) : BitVec 6 := BitVec.ofNat 6 (d.toNat % Config.maxDelayMs)

/-- R123's circuit for the residue modulo 255: end-around-carry addition of the two bytes of the draw. -/
def residueByFolding (d : Word) : Byte :=
  let t : BitVec 9 := (d.extractLsb' 8 8).setWidth 9 + (d.extractLsb' 0 8).setWidth 9
  let u : BitVec 9 := (t.extractLsb' 0 8).setWidth 9 + (t.extractLsb' 8 1).setWidth 9
  if u = 255 then 0 else u.extractLsb' 0 8

/-- DUTY c (R146): draw, reduce, clamp, write channel c's threshold. -/
def execDuty (c : Channel) (s : State) : Host.Outcome State Fault Refusal :=
  let v := dutyOf (lfsrNext s.lfsr)
  .next (advancePc (emit (ocrReg c) v (setOcr c v (draw s))))

/-- RDLY (R148): draw and derive the cycle delay. -/
def execRdly (s : State) : Host.Outcome State Fault Refusal :=
  .next (advancePc (setDly (delayOf (lfsrNext s.lfsr)) (draw s)))

/-- What one pass of the loop body gives (R164). -/
structure CycleResult where
  duty0 : Byte
  duty1 : Byte
  delay : BitVec 6
  lfsr : Word
  deriving DecidableEq, Repr

/-- One pass of the loop body from LFSR = s as a pure function (R164): three successive draws, channel 0's
first (D6). -/
def cycle (s : Word) : CycleResult :=
  let s1 := lfsrNext s
  let s2 := lfsrNext s1
  let s3 := lfsrNext s2
  ⟨dutyOf s1, dutyOf s2, delayOf s3, s3⟩

end Sys2Proof.Machine
end

