-- ==== Sys2Proof/Machine/Waits.lean ====
section
/-! DEFINITION. The waits WAITD and WAITMS (42_sequencer.md R150, R151) and the tick of the external time
base that counts them down (R142). -/

namespace Sys2Proof.Machine

/-- WAITD (R150): load WCNT with the derived delay; DLY is kept (D26). -/
def execWaitd (s : State) : Host.Outcome State Fault Refusal :=
  .next (advancePc (setWcnt (delayTicks s.dly) s))

/-- WAITMS n (R151): load WCNT with n; n = 0 waits nothing and is the NOP (R79). -/
def execWaitms (n : BitVec 12) (s : State) : Host.Outcome State Fault Refusal :=
  .next (advancePc (setWcnt n s))

/-- One tick (R142): it counts down a wait in progress and is recorded; with no wait it is lost. -/
def tickStep (s : State) : State :=
  if s.wcnt = 0 then s else record .tick (setWcnt (s.wcnt - 1) s)

end Sys2Proof.Machine
end

