-- ==== Sys2Proof/Machine/Dispatch.lean ====
section
/-! DEFINITION. One arm per operation: which meaning runs it (42_sequencer.md R141). -/

namespace Sys2Proof.Machine

def exec (i : Instr) (s : State) : Host.Outcome State Fault Refusal :=
  match i with
  | .draw => Sys2Proof.Machine.execDraw s
  | .duty c => Sys2Proof.Machine.execDuty c s
  | .rdly => Sys2Proof.Machine.execRdly s
  | .waitd => Sys2Proof.Machine.execWaitd s
  | .waitms n => Sys2Proof.Machine.execWaitms n s
  | .ocrw c imm8 => Sys2Proof.Machine.execOcrw c imm8 s
  | .enset c v => Sys2Proof.Machine.execEnset c v s
  | .dirset m => Sys2Proof.Machine.execDirset m s
  | .pwmcfg => Sys2Proof.Machine.execPwmcfg s
  | .jmp t => Sys2Proof.Machine.execJmp t s

end Sys2Proof.Machine
end

