-- ==== Sys2Proof/Machine/Sequencer.lean ====
section
/-! DEFINITION. The sequencer's step (42_sequencer.md R141), the two agents (00_scope.md R14) and their
interleavings (20_memory.md R62, 60_exceptions.md R207), and what a fetch needs. -/

namespace Sys2Proof.Machine

/-- The word the sequencer's step fetches: `RomRead(PC)` (R141). -/
def fetchWord (s : State) : Word := romRead s.rom s.pc

/-- The sequencer's step in the READY phase (R141): fetch, decode, then execute the operation or take the
fault ILLEGAL_OP. -/
def sequencerStep (s : State) : Host.Outcome State Fault Refusal :=
  match decodeWord (fetchWord s) with
  | .op i => exec i s
  | .illegal _ => .next (raiseIllegalOp (fetchWord s) s)

/-- One step of the machine, whichever agent's step has an effect in the phase (R143, R207): the tick while
WAITING, the sequencer's step while READY, none while FAULTED. Log entries 5 and 6. -/
def machineStep (s : State) : Host.Outcome State Fault Refusal :=
  match phase s with
  | .faulted => .fault (stuckReason s)
  | .waiting => .next (tickStep s)
  | .ready => sequencerStep s

/-- The agents that step (R14). -/
inductive Agent where
  | sequencer
  | tickSource
  deriving DecidableEq, Repr

/-- An agent's turn: the sequencer steps only when READY (R141), the tick source always (R142). -/
def agentTurn (a : Agent) (s : State) : Host.Outcome State Fault Refusal :=
  match a with
  | .sequencer => if phase s = .ready then sequencerStep s else .next s
  | .tickSource => .next (tickStep s)

/-- One interleaving of the agents' turns (R62, 93 I7: every interleaving is admitted). -/
def runSchedule : List Agent → State → Host.Outcome State Fault Refusal
  | [], s => .next s
  | a :: rest, s =>
    match agentTurn a s with
    | .next s' => runSchedule rest s'
    | .fault r => .fault r
    | .refused r => .refused r

/-- The state made ready to fetch a given word next: the word at ROM address PC, and what READY takes,
FAULT = 0 and WCNT = 0 (R33, R141). -/
def setFetchWord (w : Word) (s : State) : State :=
  { s with rom := loadWord s.rom s.pc w, fault := false, wcnt := 0 }

end Sys2Proof.Machine
end

