-- ==== Sys2Proof/Machine/Step.lean ====
section
/-! DEFINITION. One step of the machine (42_sequencer.md R141 to R143), and a state whose next step fetches
a given word. -/

namespace Sys2Proof.Machine

/-- One step: a next state (an operation, a tick, or taking the fault ILLEGAL_OP), or the named fault of the
stuck FAULTED state (R203). -/
def step (s : State) : Host.Outcome State Fault Refusal := machineStep s

/-- The state whose very next step runs the instruction of bits w: its word stored at ROM address PC, and
the sequencer READY (log entry 4). -/
def State.withFetchWord (s : State) (nbits w : Nat) : State :=
  setFetchWord (BitVec.ofNat 16 (w % 2 ^ nbits)) s

end Sys2Proof.Machine
end

