-- ==== Sys2Proof/Machine/Assembler.lean ====
section
/-! DEFINITION. The assembler of 30_encoding.md R82 and R83: an operation as written to an instruction,
source lines to the words of a ROM, and the reading of a line's text. It is the spec's own notation (D24)
and no part of the machine. What R82 leaves open of it is log entry 7. -/

namespace Sys2Proof.Machine

/-! ### Operations to instructions -/

/-- A channel as written; numbers over 1 are an assembly error (R82). -/
def asmChannel : Nat → Option Channel
  | 0 => some .ch0
  | 1 => some .ch1
  | _ => none

/-- An operand of w bits as written; a larger number is an assembly error, never truncated (R82). -/
def asmField (w n : Nat) : Option (BitVec w) := if n < 2 ^ w then some (BitVec.ofNat w n) else none

/-- A one-bit operand as written. -/
def asmBit : Nat → Option Bool
  | 0 => some false
  | 1 => some true
  | _ => none

/-- The address a label stands for (R82), none for a label that stands for none: using it is then an error (DESIGN
CHOICE, log entry 7). -/
def labelAddr : List (Text × Nat) → Text → Option Nat
  | [], _ => none
  | (k, a) :: t, l => if l = k then some a else labelAddr t l

/-- The instruction of an operation written at ROM address `here`, pseudo-instructions expanded (R82, R83). -/
def assembleOp (labels : List (Text × Nat)) (here : Nat) : AsmOp → Option Instr
  | .draw => some .draw
  | .duty c => (asmChannel c).map .duty
  | .rdly => some .rdly
  | .waitd => some .waitd
  | .waitms n => (asmField 12 n).map .waitms
  | .ocrw c n => (asmChannel c).bind fun c => (asmField 8 n).map (.ocrw c)
  | .enset c v => (asmChannel c).bind fun c => (asmBit v).map (.enset c)
  | .dirset m => (asmField 2 m).map .dirset
  | .pwmcfg => some .pwmcfg
  | .jmp (.addr t) => (asmField 8 t).map .jmp
  | .jmp (.label l) => (labelAddr labels l).bind fun t => (asmField 8 t).map .jmp
  | .nop => some (.waitms 0)
  | .on c => (asmChannel c).map (.enset · true)
  | .off c => (asmChannel c).map (.enset · false)
  | .floor c => (asmChannel c).map (.ocrw · (BitVec.ofNat 8 Config.minDuty))
  | .driveAll => some (.dirset 3)
  | .stop => (asmField 8 here).map .jmp

/-! ### Source lines to a ROM -/

/-- Where a program's operations and labels stand: an operation takes one ROM address, `.org a` sets the
address of the next operation, and a label stands for the address of the next operation (R82). `waiting`
are the labels that have met no operation yet. R82 does not say what a label with no operation after it
stands for. DESIGN CHOICE, log entry 7: at the end of the source such a label is dropped, so that it stands
for no address. -/
def layout (here : Nat) (waiting : List Text) : List AsmLine → List (Nat × AsmOp) × List (Text × Nat)
  | [] => ([], [])
  | .org a :: ls => layout a waiting ls
  | .line l none :: ls => layout here (waiting ++ l.toList) ls
  | .line l (some op) :: ls =>
    let (ops, labels) := layout (here + 1) [] ls
    ((here, op) :: ops, (waiting ++ l.toList).map (·, here) ++ labels)

/-- Every operation of a program assembled; none on an assembly error. An operand out of range is R82's.
DESIGN CHOICE, log entry 7: the first operation stands at ROM address 0 when no `.org` precedes it, and also
an error are the use of a label that stands for no address, a doubled label (of those that stand for an
address), an operation at an address beyond the ROM, and two operations at one address. -/
def assemble (ls : List AsmLine) : Option (List (Nat × Word)) :=
  let (ops, labels) := layout 0 [] ls
  if decide (labels.map Prod.fst).Nodup && decide (ops.map Prod.fst).Nodup
      && ops.all (fun p => decide (p.1 < Config.romDepth)) then
    ops.mapM fun (a, op) => (assembleOp labels a op).map fun i => (a, encode i)
  else none

/-! ### The text of a line -/

/-- What a line's text is made of. -/
inductive Token where
  | name (n : Text)
  | num (n : Nat)
  | comma
  | colon
  deriving DecidableEq, Repr

/-- A digit's value, up to 15; letters in either case (DESIGN CHOICE, log entry 7). -/
def digitValue (c : Char) : Option Nat :=
  if '0' ≤ c ∧ c ≤ '9' then some (c.toNat - '0'.toNat)
  else if 'a' ≤ c ∧ c ≤ 'f' then some (c.toNat - 'a'.toNat + 10)
  else if 'A' ≤ c ∧ c ≤ 'F' then some (c.toNat - 'A'.toNat + 10)
  else none

/-- The number written with digits of a base, most significant first. -/
def readDigits (base acc : Nat) : Text → Option Nat
  | [] => some acc
  | c :: cs => (digitValue c).bind fun d => if d < base then readDigits base (base * acc + d) cs else none

/-- A number: decimal, or hexadecimal with `0x` (R82); hexadecimal digits in either case (DESIGN CHOICE, log
entry 7). -/
def readNumber : Text → Option Nat
  | '0' :: 'x' :: c :: cs => readDigits 16 0 (c :: cs)
  | c :: cs => readDigits 10 0 (c :: cs)
  | [] => none

/-- Characters of a name or a number (DESIGN CHOICE, log entry 7). -/
def isWordChar (c : Char) : Bool := c.isAlphanum || c == '_' || c == '.'

/-- The token of a word: a number if it begins with a digit, else a name (DESIGN CHOICE, log entry 7). -/
def wordToken : Text → Option (List Token)
  | [] => some []
  | c :: cs => if c.isDigit then (readNumber (c :: cs)).map ([.num ·]) else some [.name (c :: cs)]

/-- A line's tokens, up to its comment (R82); `word` is the word being read. Spaces and tabs separate, and any
other character outside words, `,` and `:` is an error (DESIGN CHOICE, log entry 7). -/
def tokens (word : Text) : Text → Option (List Token)
  | [] => wordToken word
  | c :: cs =>
    if c = ';' then wordToken word
    else if isWordChar c then tokens (word ++ [c]) cs
    else (wordToken word).bind fun w =>
      if c = ',' then (tokens [] cs).map (w ++ .comma :: ·)
      else if c = ':' then (tokens [] cs).map (w ++ .colon :: ·)
      else if c = ' ' ∨ c = '\t' then (tokens [] cs).map (w ++ ·)
      else none

/-- An operation's tokens (R82's forms, R83's pseudo-instructions), mnemonics in upper case only (DESIGN CHOICE,
log entry 7). -/
def readOp : List Token → Option AsmOp
  | [.name ['D', 'R', 'A', 'W']] => some .draw
  | [.name ['D', 'U', 'T', 'Y'], .num c] => some (.duty c)
  | [.name ['R', 'D', 'L', 'Y']] => some .rdly
  | [.name ['W', 'A', 'I', 'T', 'D']] => some .waitd
  | [.name ['W', 'A', 'I', 'T', 'M', 'S'], .num n] => some (.waitms n)
  | [.name ['O', 'C', 'R', 'W'], .num c, .comma, .num n] => some (.ocrw c n)
  | [.name ['E', 'N', 'S', 'E', 'T'], .num c, .comma, .num v] => some (.enset c v)
  | [.name ['D', 'I', 'R', 'S', 'E', 'T'], .num m] => some (.dirset m)
  | [.name ['P', 'W', 'M', 'C', 'F', 'G']] => some .pwmcfg
  | [.name ['J', 'M', 'P'], .num t] => some (.jmp (.addr t))
  | [.name ['J', 'M', 'P'], .name l] => some (.jmp (.label l))
  | [.name ['N', 'O', 'P']] => some .nop
  | [.name ['O', 'N'], .num c] => some (.on c)
  | [.name ['O', 'F', 'F'], .num c] => some (.off c)
  | [.name ['F', 'L', 'O', 'O', 'R'], .num c] => some (.floor c)
  | [.name ['D', 'R', 'I', 'V', 'E', 'A', 'L', 'L']] => some .driveAll
  | [.name ['S', 'T', 'O', 'P']] => some .stop
  | _ => none

/-- A line's tokens as a line: an optional label, then an optional operation, or `.org a` (R82). R82 does not
say whether a line may hold a label and `.org`. DESIGN CHOICE, log entry 7: `name: .org a` is no line. -/
def readTokens : List Token → Option AsmLine
  | [.name ['.', 'o', 'r', 'g'], .num a] => some (.org a)
  | [] => some (.line none none)
  | [.name l, .colon] => some (.line (some l) none)
  | .name l :: .colon :: ts => (readOp ts).map fun op => .line (some l) (some op)
  | ts => (readOp ts).map fun op => .line none (some op)

/-- A line of source text (R82). -/
def readLine (t : Text) : Option AsmLine := (tokens [] t).bind readTokens

/-- Source text, line by line, to the words of a ROM. -/
def assembleText (ts : List Text) : Option (List (Nat × Word)) := (ts.mapM readLine).bind assemble

end Sys2Proof.Machine
end

