-- ==== Sys2Proof/Machine/Observe.lean ====
section
/-! DEFINITION. What can be observed of a run: several steps, the draws they make, the ticks of a history, the observation point
of a test program (42_sequencer.md R178, D33), and the informative lamp output (20_memory.md R58). No rule
of the block reads any of it. -/

namespace Sys2Proof.Machine

/-- n steps of the machine. -/
def run : Nat → State → Host.Outcome State Fault Refusal
  | 0, s => .next s
  | n + 1, s =>
    match step s with
    | .next s' => run n s'
    | .fault r => .fault r
    | .refused r => .refused r

/-- Whether an operation draws (10_state.md R21). -/
def Draws : Instr → Bool
  | .draw => true
  | .duty _ => true
  | .rdly => true
  | .waitd => false
  | .waitms _ => false
  | .ocrw _ _ => false
  | .enset _ _ => false
  | .dirset _ => false
  | .pwmcfg => false
  | .jmp _ => false

/-- Whether a step draws: the sequencer is READY and the word at PC is an operation that draws (R100, R141). -/
def stepDraws (s : State) : Bool :=
  match phase s, decodeWord (fetchWord s) with
  | .ready, .op i => Draws i
  | _, _ => false

/-- The number of drawing operations a run of n steps executes (R109's draw count). -/
def drawCount : Nat → State → Nat
  | 0, _ => 0
  | n + 1, s =>
    (if stepDraws s then 1 else 0) +
      match step s with
      | .next s' => drawCount n s'
      | _ => 0

/-- t: the number of ticks recorded in a history (R176). -/
def ticksOf (h : List Event) : Nat := h.countP (· == .tick)

/-- Where a run is observed (R178). -/
inductive Observation where
  /-- The k-th READY state whose PC is the stop address. -/
  | atStop (s : State)
  /-- The fault, where the program faults first. -/
  | atFault (s : State)
  /-- Neither within the steps given. This says nothing of the hardware (R178). -/
  | notYet
  deriving DecidableEq, Repr

/-- The observation of a run of at most `fuel` steps with a stop address, at the (k + 1)-th READY state
there, the start state counting (R178, D33). -/
def observe (stop : Byte) : Nat → Nat → State → Observation
  | 0, _, _ => .notYet
  | fuel + 1, k, s =>
    if s.fault then .atFault s
    else
      let here := phase s = .ready ∧ s.pc = stop
      if here ∧ k = 0 then .atStop s
      else
        match step s with
        | .next s' => observe stop fuel (if here then k - 1 else k) s'
        | _ => .notYet

/-- A lamp output as the spec reads it; `pwm v` is a symbol without a waveform (R58, 93 I3). -/
inductive LampOutput where
  | off
  | on
  | pwm (v : Byte)
  deriving DecidableEq, Repr

/-- The only order R58 gives the symbol: a larger threshold means a pulse at least as wide. -/
def LampOutput.pulseAtLeastAsWide : LampOutput → LampOutput → Bool
  | .pwm v, .pwm u => decide (u ≤ v)
  | _, _ => false

/-- `out(c)` (R58, D8), informative. With PWM on and the threshold unwritten the observation faults: it gets
no value (R240, 93 I2). When a written threshold reaches the waveform is left open (R67). -/
def lampOutput (s : State) (c : Channel) : Except Fault LampOutput :=
  if s.dir.get c = false then .ok .off
  else if s.pwmOn = true then
    match s.ocr.get c with
    | .written v => .ok (.pwm v)
    | .unwritten => .error .thresholdUnwritten
  else if s.en.get c = true then .ok .on
  else .ok .off

end Sys2Proof.Machine
end

