-- ==== Sys2Proof/Safety.lean ====
section
/-! DEFINITION. What a sound state and a safe run are, in the terms the statements use. -/

namespace Sys2Proof.Machine

/-- Whether an event is a fault record (R202). -/
def Event.isFault : Event → Bool
  | .fault _ _ => true
  | _ => false

/-- The fault record and the history tell one story (10_state.md R31, 60_exceptions.md R201 to R203): before
a fault the record is clear and the history holds none; after it the cause is ILLEGAL_OP, no wait is in
progress, FWORD is the ILLEGAL word that stands at PC, and the history ends in that fault, its only one. -/
structure FaultRecordSound (s : State) : Prop where
  clear : s.fault = false → s.fcause = causeNone ∧ s.fword = 0x0000 ∧ ∀ e ∈ s.history, e.isFault = false
  cause : s.fault = true → s.fcause = causeIllegalOp
  idle : s.fault = true → s.wcnt = 0
  word : s.fault = true → s.fword = fetchWord s ∧ ∃ why, decodeWord s.fword = .illegal why
  logged : s.fault = true → ∃ h, s.history = h ++ [.fault s.pc s.fword] ∧ ∀ e ∈ h, e.isFault = false

/-- The external capability, replaying the history, holds what the block's registers hold (20_memory.md
R53, R54, R62; D31). -/
def HistoryReplays (s : State) : Prop := ∀ r, replay r s.history = ifRegValue s r

/-- A sound state: the ROM image is canonical, DLY is a delay (0 to 49, R28), the fault record is sound, and
the history replays to the registers. -/
structure Sound (s : State) : Prop where
  rom : Memory.wf s.rom = true
  delay : s.dly.toNat < Config.maxDelayMs
  record : FaultRecordSound s
  replays : HistoryReplays s

/-- A safe run so far: no fault recorded, "a premise of every claim" (R203). -/
def NoFault (s : State) : Prop := s.fault = false

/-- The platform's duty on SEED (70_reset_and_hazards.md R232, D5); no rule of the block needs it. -/
def SeedDuty (seed : Word) : Prop := seed ≠ 0

end Sys2Proof.Machine
end

