-- ==== Sys2Proof/Certificates/Slice0/Obligations.lean ====
section
/-! DEFINITION. The statements for the provers, each from the rules of spec/ its docstring names. -/

open Sys2Proof Sys2Proof.Machine

/-! ### Encoding -/

/-- Words written out bit by bit from R72's formats and R74's opcodes decode to the operations they stand for,
and four words of R76 and R77 to ILLEGAL. Twelve of them are among V120 to V153 of 95_test_vectors.md section
2.8; OCRW 1, 50 is R152's worked example, and DIRSET 2 is R82's 0x8000 + m. -/
def Obligations.WrittenWordsDecode : Prop :=
  decodeWord 0b0001_0000_0000_0000 = .op .draw ∧
  decodeWord 0b0010_0001_0000_0000 = .op (.duty .ch1) ∧
  decodeWord 0b0011_0000_0000_0000 = .op .rdly ∧
  decodeWord 0b0100_0000_0000_0000 = .op .waitd ∧
  decodeWord 0b0101_0010_1110_1110 = .op (.waitms 750) ∧
  decodeWord 0b0110_0001_0011_0010 = .op (.ocrw .ch1 50) ∧
  decodeWord 0b0111_0001_0000_0001 = .op (.enset .ch1 true) ∧
  decodeWord 0b1000_0000_0000_0010 = .op (.dirset 2) ∧
  decodeWord 0b1001_0000_0000_0000 = .op .pwmcfg ∧
  decodeWord 0b1010_0000_0000_1011 = .op (.jmp 0x0B) ∧
  decodeWord 0x0000 = .illegal (.unassignedOpcode 0x0) ∧
  decodeWord 0xB000 = .illegal (.unassignedOpcode 0xB) ∧
  decodeWord 0x2200 = .illegal (.reservedBitSet 0x2) ∧
  decodeWord 0x7002 = .illegal (.reservedBitSet 0x7)

/-- Decoding the encoding of any operation gives it back, as a word and as the bytes of a ROM image whatever
follows them (R70, R72, R75). -/
def Obligations.DecodeOfEncode : Prop :=
  ∀ (i : Instr) (rest : List Byte),
    decodeWord (encode i) = .op i ∧ decode (wordBytes (encode i) ++ rest) = .op i

/-- Each operation has one word: a word that decodes to it is its encoding, so no bit of a legal word is
ignored (R76). -/
def Obligations.EncodeOfDecode : Prop :=
  ∀ (w : Word) (i : Instr), decodeWord w = .op i → encode i = w

/-- R74: the ten rows' match and mask; a word is a row's operation exactly when it passes the row's test; no
word passes two; the opcodes 0x0 and 0xB to 0xF have no operation. -/
def Obligations.OpcodeMapMatches : Prop :=
  (∀ c c' c'' n n' v m t,
    [Instr.draw, .duty c, .rdly, .waitd, .waitms n, .ocrw c' n', .enset c'' v, .dirset m, .pwmcfg, .jmp t].map
        opcodeMatchMask =
      [(0x1000, 0xFFFF), (0x2000, 0xFEFF), (0x3000, 0xFFFF), (0x4000, 0xFFFF), (0x5000, 0xF000),
       (0x6000, 0xFE00), (0x7000, 0xFEFE), (0x8000, 0xFFFC), (0x9000, 0xFFFF), (0xA000, 0xFF00)]) ∧
  (∀ w i, decodeWord w = .op i → matchesRow w i = true) ∧
  (∀ w i, matchesRow w i = true → ∃ j, decodeWord w = .op j ∧ opcodeMatchMask j = opcodeMatchMask i) ∧
  (∀ w i j, matchesRow w i = true → matchesRow w j = true → opcodeMatchMask i = opcodeMatchMask j) ∧
  (∀ w : Word, w.toNat / 4096 = 0 ∨ 11 ≤ w.toNat / 4096 → ∀ i, matchesRow w i = false ∧ decodeWord w ≠ .op i)

/-- R76: a word of an assigned opcode with a 1 in a must-be-zero bit (a bit below the opcode that the row's
mask tests) is ILLEGAL, and fetching it faults like an unassigned opcode: the same fault entry. -/
def Obligations.MustBeZeroBitIsIllegal : Prop :=
  ∀ (w : Word) (i : Instr) (k : Nat), fieldOp w = fieldOp (encode i) → k < 12 →
    (opcodeMatchMask i).2.getLsbD k = true → w.getLsbD k = true →
    decodeWord w = .illegal (.reservedBitSet (fieldOp w)) ∧
    ∀ s : State, s.fault = false → s.wcnt = 0 → fetchWord s = w → step s = .next (raiseIllegalOp w s)

/-- R77: every word of opcode 0x0 or 0xB to 0xF is ILLEGAL, the all-zero word among them; fetching any ILLEGAL
word raises ILLEGAL_OP at once, so a jump into unfilled ROM faults in the step after it. -/
def Obligations.UnassignedOpcodeIsIllegal : Prop :=
  (∀ w : Word, w.toNat / 4096 = 0 ∨ 11 ≤ w.toNat / 4096 → decodeWord w = .illegal (.unassignedOpcode (fieldOp w))) ∧
  decodeWord 0x0000 = .illegal (.unassignedOpcode 0) ∧
  (∀ (s : State) (why : IllegalReason), s.fault = false → s.wcnt = 0 → decodeWord (fetchWord s) = .illegal why →
    step s = .next (raiseIllegalOp (fetchWord s) s)) ∧
  (∀ (s : State) (t : Byte), s.fault = false → s.wcnt = 0 → romRead s.rom t = 0x0000 →
    ∃ u, exec (.jmp t) s = .next u ∧ step u = .next (raiseIllegalOp 0x0000 u))

/-- How many words spell an operation, in all and each (R78, derived there from R75). -/
def Obligations.LegalWordCount : Prop :=
  Nat.card { w : Word // ∃ i, decodeWord w = .op i } = 4878 ∧
  Nat.card { w : Word // ∃ why, decodeWord w = .illegal why } = 60658 ∧
  Nat.card { w : Word // decodeWord w = .op .draw } = 1 ∧
  Nat.card { w : Word // ∃ c, decodeWord w = .op (.duty c) } = 2 ∧
  Nat.card { w : Word // decodeWord w = .op .rdly } = 1 ∧
  Nat.card { w : Word // decodeWord w = .op .waitd } = 1 ∧
  Nat.card { w : Word // ∃ n, decodeWord w = .op (.waitms n) } = 4096 ∧
  Nat.card { w : Word // ∃ c n, decodeWord w = .op (.ocrw c n) } = 512 ∧
  Nat.card { w : Word // ∃ c v, decodeWord w = .op (.enset c v) } = 4 ∧
  Nat.card { w : Word // ∃ m, decodeWord w = .op (.dirset m) } = 4 ∧
  Nat.card { w : Word // decodeWord w = .op .pwmcfg } = 1 ∧
  Nat.card { w : Word // ∃ t, decodeWord w = .op (.jmp t) } = 256

/-- The words R82's table gives each form, for operands in range, and no word for an operand out of its range:
"the assembler never truncates it". JMP takes a label for an address: the word of the address the label stands
for, no word when it stands for none (log entry 7); and a label stands for the ROM address of the next operation,
on its own line, after lines without one, or after `.org`. -/
def Obligations.AssemblerWords : Prop :=
  ∀ (labels : List (Text × Nat)) (here : Nat),
    let word := fun op => (assembleOp labels here op).map fun i => (encode i).toNat
    word .draw = some 0x1000 ∧ word .rdly = some 0x3000 ∧ word .waitd = some 0x4000 ∧ word .pwmcfg = some 0x9000 ∧
    (∀ c, word (.duty c) = if c < 2 then some (0x2000 + c * 0x100) else none) ∧
    (∀ n, word (.waitms n) = if n < 4096 then some (0x5000 + n) else none) ∧
    (∀ c n, word (.ocrw c n) = if c < 2 ∧ n < 256 then some (0x6000 + c * 0x100 + n) else none) ∧
    (∀ c v, word (.enset c v) = if c < 2 ∧ v < 2 then some (0x7000 + c * 0x100 + v) else none) ∧
    (∀ m, word (.dirset m) = if m < 4 then some (0x8000 + m) else none) ∧
    (∀ t, word (.jmp (.addr t)) = if t < 256 then some (0xA000 + t) else none) ∧
    (∀ l t, labelAddr labels l = some t → word (.jmp (.label l)) = if t < 256 then some (0xA000 + t) else none) ∧
    (∀ l, labelAddr labels l = none → word (.jmp (.label l)) = none) ∧
    (∀ l t, labelAddr labels l = some t → (l, t) ∈ labels) ∧
    (∀ l t, (labels.map Prod.fst).Nodup → (l, t) ∈ labels → labelAddr labels l = some t) ∧
    ∀ (waiting : List Text) (l : Text) (op : AsmOp) (k a : Nat) (ls : List AsmLine),
      (l, here) ∈ (layout here waiting (.line (some l) (some op) :: ls)).2 ∧
      (l, here) ∈ (layout here waiting
        (.line (some l) none :: List.replicate k (.line none none) ++ .line none (some op) :: ls)).2 ∧
      (l, a) ∈ (layout here waiting (.line (some l) none :: .org a :: .line none (some op) :: ls)).2

/-- R83: the six pseudo-instructions' expansions and words, and that STOP, a jump to its own address, loops
without emitting or waiting: its step changes nothing at all. -/
def Obligations.PseudoInstructions : Prop :=
  (∀ (labels : List (Text × Nat)) (here : Nat) (c : Channel),
    assembleOp labels here .nop = some (.waitms 0) ∧ encode (.waitms 0) = 0x5000 ∧
    assembleOp labels here (.on c.toNat) = some (.enset c true) ∧ (encode (.enset c true)).toNat = 0x7001 + c.toNat * 0x100 ∧
    assembleOp labels here (.off c.toNat) = some (.enset c false) ∧ (encode (.enset c false)).toNat = 0x7000 + c.toNat * 0x100 ∧
    assembleOp labels here (.floor c.toNat) = some (.ocrw c 50) ∧ (encode (.ocrw c 50)).toNat = 0x6032 + c.toNat * 0x100 ∧
    assembleOp labels here .driveAll = some (.dirset 3) ∧ encode (.dirset 3) = 0x8003) ∧
  (∀ (labels : List (Text × Nat)) (a : Byte),
    assembleOp labels a.toNat .stop = some (.jmp a) ∧ (encode (.jmp a)).toNat = 0xA000 + a.toNat) ∧
  (∀ s : State, s.fault = false → s.wcnt = 0 → fetchWord s = encode (.jmp s.pc) → step s = .next s)

/-! ### The pseudo-random generator -/

/-- R101 to R103 in the numbers they are written in: the guard, the feedback bit as the parity of bits 15, 14,
12 and 3, and the new state 2g + f modulo 2^16. -/
def Obligations.LfsrStepArithmetic : Prop :=
  ∀ s : Word,
    (lfsrGuard s).toNat = (if s.toNat = 0 then 1 else s.toNat) ∧
    (∀ g : Word, (lfsrFb g).toNat =
      (g.toNat / 2 ^ 15 + g.toNat / 2 ^ 14 + g.toNat / 2 ^ 12 + g.toNat / 2 ^ 3) % 2) ∧
    (lfsrNext s).toNat = (2 * (lfsrGuard s).toNat + (lfsrFb (lfsrGuard s)).toNat) % 2 ^ 16

/-- The step is a left-shifting register with serial input (R105), and adding the feedback bit is the same as
or-ing it in (R104); both are the spec's derivations. -/
def Obligations.LfsrIsShiftRegister : Prop :=
  ∀ s : Word, lfsrNext s = lfsrShiftRegister s ∧
    lfsrNext s = (lfsrGuard s <<< 1) ||| (BitVec.ofBool (lfsrFb (lfsrGuard s))).setWidth 16

/-- The step never gives 0; 0x0002 has the two predecessors 0 and 1; every other non-zero value has exactly one
(R106, R107, derived there). -/
def Obligations.LfsrPredecessors : Prop :=
  (∀ s, lfsrNext s ≠ 0) ∧ (∀ s, lfsrNext s = 0x0002 ↔ s = 0x0000 ∨ s = 0x0001) ∧
  (∀ v : Word, v ≠ 0 → v ≠ 0x0002 → ∃! s, lfsrNext s = v)

/-- The PRG has maximal period: a number of draws returns to a non-zero state exactly when it is a multiple of
65 535, and every non-zero value is drawn on the way (R107, derived there by enumeration). -/
def Obligations.LfsrMaximalPeriod : Prop :=
  ∀ s : Word, s ≠ 0 →
    (∀ n, drawn n s = s ↔ 65535 ∣ n) ∧
    ∀ v : Word, v ≠ 0 → ∃ n, n < 65535 ∧ drawn n s = v

/-- A draw leaves the LFSR non-zero, every step keeps a non-zero LFSR non-zero, and two draws in a row never
give one value (R22, R106, R110). -/
def Obligations.DrawsAreNonzeroAndDistinct : Prop :=
  (∀ i s t, Draws i = true → exec i s = .next t → t.lfsr ≠ 0) ∧
  (∀ s t, step s = .next t → s.lfsr ≠ 0 → t.lfsr ≠ 0) ∧
  (∀ i j s t u, Draws i = true → Draws j = true → exec i s = .next t → exec j t = .next u → u.lfsr ≠ t.lfsr)

/-- The LFSR is a function of its first value and of the number of draws (R109). An operation makes one draw if it
is DRAW, DUTY or RDLY and none otherwise; a tick and the fault entry make none; so after a run the LFSR is its
first value drawn as often as the run executed a drawing operation, and two runs with equal first values and equal
counts end with equal LFSRs, whatever the rest of the state, the ticks and the writes were. -/
def Obligations.LfsrDependsOnDrawCountOnly : Prop :=
  (∀ i, Draws i = true ↔ i = .draw ∨ (∃ c, i = .duty c) ∨ i = .rdly) ∧
  (∀ i s t, exec i s = .next t → t.lfsr = if Draws i then lfsrNext s.lfsr else s.lfsr) ∧
  (∀ s, (tickStep s).lfsr = s.lfsr) ∧ (∀ w s, (raiseIllegalOp w s).lfsr = s.lfsr) ∧
  (∀ s, stepDraws s = true ↔ phase s = .ready ∧ ∃ i, decodeWord (fetchWord s) = .op i ∧ Draws i = true) ∧
  (∀ n s t, run n s = .next t → t.lfsr = drawn (drawCount n s) s.lfsr) ∧
  (∀ n n' s s' t t', run n s = .next t → run n' s' = .next t' → s.lfsr = s'.lfsr →
    drawCount n s = drawCount n' s' → t.lfsr = t'.lfsr)

/-- SEED 0 and SEED 1 give one run from the first draw on: until it the two states differ in the LFSR alone, and
after it in nothing (R232). -/
def Obligations.ZeroSeedRunsAsOne : Prop :=
  ∀ (n : Nat) (s t : State), run n { s with lfsr := 0x0000 } = .next t →
    ∃ u, run n { s with lfsr := 0x0001 } = .next u ∧
      ((t = u ∧ t.lfsr ≠ 0) ∨ (t.lfsr = 0x0000 ∧ u = { t with lfsr := 0x0001 }))

/-! ### Clamp and reduce -/

/-- R120: the residue modulo 255, raised to 50 when below it. -/
def Obligations.DutyOfValue : Prop :=
  ∀ d : Word, (dutyOf d).toNat = if d.toNat % 255 < 50 then 50 else d.toNat % 255

/-- The duty values are exactly 50 to 254 (R121, R127, derived there). -/
def Obligations.DutyRange : Prop :=
  ∀ v : Byte, (∃ d, dutyOf d = v) ↔ 50 ≤ v.toNat ∧ v.toNat ≤ 254

/-- R123's end-around-carry circuit computes the residue modulo 255 of every draw (derived there). -/
def Obligations.FoldingComputesResidue : Prop :=
  ∀ d : Word, (residueByFolding d).toNat = d.toNat % 255

/-- R124: the delay is the residue modulo 50, from 0 to 49, and nothing is dropped on the way to 6 bits. -/
def Obligations.DelayOfValue : Prop :=
  ∀ d : Word, (delayOf d).toNat = d.toNat % 50 ∧ (delayOf d).toNat ≤ 49

/-- The distribution of duty and delay values over the 65 535 non-zero draws (R126, derived there). -/
def Obligations.DrawDistribution : Prop :=
  Nat.card { d : Word // d ≠ 0 ∧ dutyOf d = 50 } = 13107 ∧
  (∀ v : Byte, 51 ≤ v.toNat → v.toNat ≤ 254 → Nat.card { d : Word // d ≠ 0 ∧ dutyOf d = v } = 257) ∧
  (∀ k : BitVec 6, 1 ≤ k.toNat → k.toNat ≤ 35 → Nat.card { d : Word // d ≠ 0 ∧ delayOf d = k } = 1311) ∧
  (∀ k : BitVec 6, k.toNat = 0 ∨ (36 ≤ k.toNat ∧ k.toNat ≤ 49) →
    Nat.card { d : Word // d ≠ 0 ∧ delayOf d = k } = 1310)

/-! ### What each operation does, and that it completes -/

/-- R108: DRAW advances the PRG and PC, and does nothing else; its word is 0x1000 and every other word of opcode
1 is ILLEGAL. -/
def Obligations.DrawResult : Prop :=
  (∀ s : State, exec .draw s = .next { s with lfsr := lfsrNext s.lfsr, pc := s.pc + 1 }) ∧
  decodeWord 0x1000 = .op .draw ∧
  (∀ w : Word, w.toNat / 4096 = 1 → w ≠ 0x1000 → ∃ why, decodeWord w = .illegal why)

/-- R146: DUTY c draws, writes the clamped residue of the new state to OCR[c], emits it, advances PC, and does
nothing else. -/
def Obligations.DutyResult : Prop :=
  ∀ (c : Channel) (s : State),
    let n := lfsrNext s.lfsr
    exec (.duty c) s = .next { s with
      lfsr := n
      ocr := s.ocr.set c (.written (dutyOf n))
      history := s.history ++ [.wr (if c = .ch0 then .ocr0 else .ocr1) (dutyOf n)]
      pc := s.pc + 1 } ∧
    (encode (.duty c)).toNat = 0x2000 + c.toNat * 0x100

/-- R148: RDLY draws, loads DLY with the residue of the new state modulo 50, advances PC, and does nothing else. -/
def Obligations.RdlyResult : Prop :=
  (∀ s : State,
    let n := lfsrNext s.lfsr
    exec .rdly s = .next { s with lfsr := n, dly := delayOf n, pc := s.pc + 1 } ∧ (delayOf n).toNat = n.toNat % 50) ∧
  decodeWord 0x3000 = .op .rdly

/-- R150: WAITD loads WCNT with DLY, advances PC, keeps DLY, and does nothing else; the next sequencer step then
comes after exactly DLY ticks. -/
def Obligations.WaitdResult : Prop :=
  decodeWord 0x4000 = .op .waitd ∧
  (∀ s : State, exec .waitd s = .next { s with wcnt := BitVec.ofNat 12 s.dly.toNat, pc := s.pc + 1 }) ∧
  (∀ s t : State, s.fault = false → exec .waitd s = .next t →
    (∀ k < s.dly.toNat, ∃ u, runSchedule (List.replicate k .tickSource) t = .next u ∧ phase u = .waiting) ∧
    ∃ u, runSchedule (List.replicate s.dly.toNat .tickSource) t = .next u ∧ phase u = .ready ∧ u.pc = s.pc + 1 ∧
      u.history = s.history ++ List.replicate s.dly.toNat .tick)

/-- R151: WAITMS n loads WCNT with n, advances PC, and does nothing else; n ticks later, and no sooner, the
sequencer is READY again; WAITMS 0 waits nothing. -/
def Obligations.WaitmsResult : Prop :=
  (∀ n : BitVec 12, (encode (.waitms n)).toNat = 0x5000 + n.toNat) ∧
  (∀ (n : BitVec 12) (s : State), exec (.waitms n) s = .next { s with wcnt := n, pc := s.pc + 1 }) ∧
  (∀ (n : BitVec 12) (s t : State), s.fault = false → exec (.waitms n) s = .next t →
    (∀ k < n.toNat, ∃ u, runSchedule (List.replicate k .tickSource) t = .next u ∧ phase u = .waiting) ∧
    ∃ u, runSchedule (List.replicate n.toNat .tickSource) t = .next u ∧ phase u = .ready ∧ u.pc = s.pc + 1 ∧
      u.history = s.history ++ List.replicate n.toNat .tick)

/-- R152: OCRW c, imm8 writes the value as given, emits it, advances PC, and does nothing else. -/
def Obligations.OcrwResult : Prop :=
  ∀ (c : Channel) (v : Byte) (s : State),
    exec (.ocrw c v) s = .next { s with
      ocr := s.ocr.set c (.written v)
      history := s.history ++ [.wr (if c = .ch0 then .ocr0 else .ocr1) v]
      pc := s.pc + 1 } ∧
    (encode (.ocrw c v)).toNat = 0x6000 + c.toNat * 0x100 + v.toNat

/-- R154: ENSET c, v sets EN[c], keeps the other channel's bit, emits both bits as they are after the update,
even when nothing changed, advances PC, and does nothing else. -/
def Obligations.EnsetResult : Prop :=
  ∀ (c : Channel) (v : Bool) (s : State),
    let en : PerChannel Bool := if c = .ch0 then ⟨v, s.en.ch1⟩ else ⟨s.en.ch0, v⟩
    exec (.enset c v) s = .next { s with
      en := en
      history := s.history ++ [.wr .outen (BitVec.ofNat 8 (2 * en.ch1.toNat + en.ch0.toNat))]
      pc := s.pc + 1 } ∧
    (encode (.enset c v)).toNat = 0x7000 + c.toNat * 0x100 + v.toNat

/-- R156: DIRSET m writes both direction bits from the mask, emits the mask, advances PC, and does nothing else. -/
def Obligations.DirsetResult : Prop :=
  ∀ (m : BitVec 2) (s : State),
    exec (.dirset m) s = .next { s with
      dir := ⟨m.toNat % 2 = 1, m.toNat / 2 = 1⟩
      history := s.history ++ [.wr .dir (BitVec.ofNat 8 m.toNat)]
      pc := s.pc + 1 } ∧
    (encode (.dirset m)).toNat = 0x8000 + m.toNat

/-- R158: PWMCFG sets PWM_ON, emits 1 to PWMCTL, advances PC, and does nothing else; a second one emits again and
changes no state but PC and the history. -/
def Obligations.PwmcfgResult : Prop :=
  (∀ s : State, exec .pwmcfg s = .next { s with
    pwmOn := true, history := s.history ++ [.wr .pwmctl 0x01], pc := s.pc + 1 }) ∧
  (∀ s : State, s.pwmOn = true → exec .pwmcfg s = .next { s with
    history := s.history ++ [.wr .pwmctl 0x01], pc := s.pc + 1 }) ∧
  decodeWord 0x9000 = .op .pwmcfg

/-- R160: JMP t sets PC to t and does nothing else; with an ILLEGAL word at the target, the next step of a READY
sequencer is the fault entry there, and nothing else has changed. -/
def Obligations.JmpResult : Prop :=
  (∀ (t : Byte) (s : State), exec (.jmp t) s = .next { s with pc := t } ∧ (encode (.jmp t)).toNat = 0xA000 + t.toNat) ∧
  (∀ (t : Byte) (s : State) (why : IllegalReason), s.fault = false → s.wcnt = 0 →
    decodeWord (romRead s.rom t) = .illegal why →
    ∃ u, exec (.jmp t) s = .next u ∧ step u = .next { s with
      pc := t, fault := true, fcause := 1, fword := romRead s.rom t
      history := s.history ++ [.fault t (romRead s.rom t)] })

/-- R200: no operation raises an exception once decoded: each completes from every state, whatever its operands,
and leaves the fault record alone; the sequencer's step faults exactly when the word at PC is ILLEGAL. -/
def Obligations.OnlyIllegalWordsFault : Prop :=
  (∀ i s, ∃ t, exec i s = .next t ∧ t.fault = s.fault ∧ t.fcause = s.fcause ∧ t.fword = s.fword) ∧
  (∀ s, phase s = .ready → ∃ t, step s = .next t ∧
    (t.fault = true ↔ ∃ why, decodeWord (romRead s.rom s.pc) = .illegal why))

/-! ### Frames (10_state.md R36, write column) -/

/-- The drawing operations DRAW, DUTY, RDLY: LFSR and PC may change; beyond them only DUTY c's OCR[c] and RDLY's
DLY; DUTY alone adds to the history. No byte of the ROM changes. -/
def Obligations.DrawingFrame : Prop :=
  ∀ i s t, Draws i = true → exec i s = .next t →
    t.dir = s.dir ∧ t.en = s.en ∧ t.pwmOn = s.pwmOn ∧ t.wcnt = s.wcnt ∧
    t.fault = s.fault ∧ t.fcause = s.fcause ∧ t.fword = s.fword ∧
    (∀ c, i ≠ .duty c → t.ocr.get c = s.ocr.get c) ∧
    (i ≠ .rdly → t.dly = s.dly) ∧
    ((∀ c, i ≠ .duty c) → t.history = s.history) ∧
    ∀ a, readByte t.rom a = readByte s.rom a

/-- WAITD, WAITMS and JMP: PC may change, and WCNT for the two waits; nothing else, and no byte of the ROM. -/
def Obligations.WaitAndJumpFrame : Prop :=
  ∀ i s t, (i = .waitd ∨ (∃ n, i = .waitms n) ∨ ∃ a, i = .jmp a) → exec i s = .next t →
    t.lfsr = s.lfsr ∧ t.ocr = s.ocr ∧ t.dir = s.dir ∧ t.en = s.en ∧ t.pwmOn = s.pwmOn ∧ t.dly = s.dly ∧
    t.fault = s.fault ∧ t.fcause = s.fcause ∧ t.fword = s.fword ∧ t.history = s.history ∧
    ((∃ a, i = .jmp a) → t.wcnt = s.wcnt) ∧
    ∀ a, readByte t.rom a = readByte s.rom a

/-- OCRW, ENSET, DIRSET and PWMCFG: PC may change and one event is added; beyond that only OCRW c's OCR[c],
ENSET c's EN[c], DIRSET's two bits, PWMCFG's PWM_ON. No byte of the ROM changes. -/
def Obligations.InterfaceWriteFrame : Prop :=
  ∀ i s t, ((∃ c v, i = .ocrw c v) ∨ (∃ c v, i = .enset c v) ∨ (∃ m, i = .dirset m) ∨ i = .pwmcfg) →
    exec i s = .next t →
    t.lfsr = s.lfsr ∧ t.dly = s.dly ∧ t.wcnt = s.wcnt ∧
    t.fault = s.fault ∧ t.fcause = s.fcause ∧ t.fword = s.fword ∧
    (∀ c, (∀ v, i ≠ .ocrw c v) → t.ocr.get c = s.ocr.get c) ∧
    (∀ c, (∀ v, i ≠ .enset c v) → t.en.get c = s.en.get c) ∧
    ((∀ m, i ≠ .dirset m) → t.dir = s.dir) ∧
    (i ≠ .pwmcfg → t.pwmOn = s.pwmOn) ∧
    (∃ r v, t.history = s.history ++ [.wr r v]) ∧
    ∀ a, readByte t.rom a = readByte s.rom a

/-- R36's read column: what an operation writes and emits depends on nothing but PC, the LFSR for a drawing
operation, DLY for WAITD, and the other channel's EN bit for ENSET. -/
def Obligations.OperationsReadOnlyWhatIsListed : Prop :=
  ∀ i s s' t t', exec i s = .next t → exec i s' = .next t' → s.pc = s'.pc →
    (Draws i = true → s.lfsr = s'.lfsr) → (i = .waitd → s.dly = s'.dly) →
    (∀ c v d, i = .enset c v → d ≠ c → s.en.get d = s'.en.get d) →
    t.pc = t'.pc ∧ (Draws i = true → t.lfsr = t'.lfsr) ∧
    (∀ c, i = .duty c ∨ (∃ v, i = .ocrw c v) → t.ocr.get c = t'.ocr.get c) ∧
    (i = .rdly → t.dly = t'.dly) ∧
    (i = .waitd ∨ (∃ n, i = .waitms n) → t.wcnt = t'.wcnt) ∧
    (∀ c v, i = .enset c v → t.en.get c = t'.en.get c) ∧
    (∀ m, i = .dirset m → t.dir = t'.dir) ∧
    (i = .pwmcfg → t.pwmOn = t'.pwmOn) ∧
    ∃ es, t.history = s.history ++ es ∧ t'.history = s'.history ++ es

/-- The channels share nothing but the LFSR: DUTY, OCRW and ENSET of one channel leave the other channel's OCR,
EN and DIR, and what they write is the same whatever the other channel's registers hold (R37). -/
def Obligations.ChannelsAreIndependent : Prop :=
  ∀ (c d : Channel) (i : Instr) (s t : State), d ≠ c →
    (i = .duty c ∨ (∃ v, i = .ocrw c v) ∨ (∃ v, i = .enset c v)) → exec i s = .next t →
    t.ocr.get d = s.ocr.get d ∧ t.en.get d = s.en.get d ∧ t.dir.get d = s.dir.get d ∧
    ∀ (o : Threshold) (e r : Bool), ∃ t',
      exec i { s with ocr := s.ocr.set d o, en := s.en.set d e, dir := s.dir.set d r } = .next t' ∧
      t'.ocr.get c = t.ocr.get c ∧ t'.en.get c = t.en.get c ∧ t'.dir.get c = t.dir.get c ∧ t'.lfsr = t.lfsr

/-! ### The step, the tick and the fault -/

/-- R141: in the READY phase the step decodes the word at PC and runs it as exec, or takes the fault; in no other
phase does the sequencer step. -/
def Obligations.StepRunsDecodedOperation : Prop :=
  ∀ s : State,
    (∀ i, s.fault = false → s.wcnt = 0 → decodeWord (romRead s.rom s.pc) = .op i →
      step s = exec i s ∧ agentTurn .sequencer s = exec i s) ∧
    (∀ why, s.fault = false → s.wcnt = 0 → decodeWord (romRead s.rom s.pc) = .illegal why →
      step s = .next (raiseIllegalOp (romRead s.rom s.pc) s) ∧
      agentTurn .sequencer s = .next (raiseIllegalOp (romRead s.rom s.pc) s)) ∧
    (¬(s.fault = false ∧ s.wcnt = 0) → agentTurn .sequencer s = .next s)

/-- R202: the fault entry writes FAULT, FCAUSE and FWORD and records the fault; PC, LFSR, OCR, EN, DIR, PWM_ON, DLY
and WCNT are unchanged, and no write is emitted. -/
def Obligations.FaultEntry : Prop :=
  ∀ (s : State) (why : IllegalReason), s.fault = false → s.wcnt = 0 →
    decodeWord (romRead s.rom s.pc) = .illegal why →
    step s = .next { s with
      fault := true, fcause := 1, fword := romRead s.rom s.pc
      history := s.history ++ [.fault s.pc (romRead s.rom s.pc)] }

/-- The faulted state is stuck (R203): the step stops, by a name that tells a reserved cause (93 I9, the model's form,
log entry 5), the sequencer has no turn, a tick changes nothing (WCNT is 0
from the fault entry on), no step clears FAULT, and reset does. -/
def Obligations.FaultedIsStuck : Prop :=
  (∀ s : State, s.fault = true → s.fcause = 1 → step s = .fault .stuckIllegalOp) ∧
  (∀ s : State, s.fault = true → s.fcause ≠ 1 → step s = .fault .reservedCause) ∧
  (∀ s t : State, s.fault = true → step s ≠ .next t) ∧
  (∀ s : State, s.fault = true → agentTurn .sequencer s = .next s) ∧
  (∀ s : State, s.fault = true → s.wcnt = 0 → agentTurn .tickSource s = .next s) ∧
  (∀ s : State, (resetEvent s).fault = false)

/-- R142: a tick counts WCNT down by one and is recorded, and with no wait in progress it has no effect; it changes
nothing else, and it is always enabled. -/
def Obligations.TickResult : Prop :=
  ∀ s : State,
    (s.wcnt ≠ 0 → agentTurn .tickSource s = .next { s with
        wcnt := BitVec.ofNat 12 (s.wcnt.toNat - 1), history := s.history ++ [.tick] }) ∧
    (s.wcnt = 0 → agentTurn .tickSource s = .next s)

/-- In each phase, whose step has an effect: WAITING the tick's alone, READY the sequencer's alone, FAULTED none
(R33, R143, R207, derived there). That the machine's step is the tick while WAITING is log entry 6; that it stops
with a fault while FAULTED, where the spec says only that no step is enabled, is the model's choice, log entry 5. -/
def Obligations.PhaseDecidesWhoSteps : Prop :=
  ∀ s : State,
    (phase s = .faulted ↔ s.fault = true) ∧
    (phase s = .waiting ↔ s.fault = false ∧ s.wcnt ≠ 0) ∧
    (phase s = .ready ↔ s.fault = false ∧ s.wcnt = 0) ∧
    (phase s = .waiting → step s = agentTurn .tickSource s ∧ agentTurn .sequencer s = .next s) ∧
    (phase s = .ready → step s = agentTurn .sequencer s ∧ agentTurn .tickSource s = .next s) ∧
    (phase s = .faulted → ∃ r, step s = .fault r)

/-- Every interleaving of the agents' turns leads where the machine's own steps lead: whatever the schedule, some
number of steps, at most its length, reaches the same state (R62, R207, 93 I7; the turns are log entry 6's). -/
def Obligations.EveryScheduleIsARun : Prop :=
  ∀ (turns : List Agent) (s : State), (s.fault = true → s.wcnt = 0) →
    ∃ n t, n ≤ turns.length ∧ runSchedule turns s = .next t ∧ run n s = .next t

/-- The output history is the same under all interleavings: of two schedules from one state, one's history begins
with the other's (R62, R176, 93 I7; the turns are log entry 6's). -/
def Obligations.SchedulesAgreeOnHistory : Prop :=
  ∀ (turns turns' : List Agent) (s t t' : State), (s.fault = true → s.wcnt = 0) →
    runSchedule turns s = .next t → runSchedule turns' s = .next t' →
    t.history <+: t'.history ∨ t'.history <+: t.history

/-- R30: every operation but JMP moves PC to the next address modulo 256, JMP to its target, a fault leaves it at
the faulting word, and the step executes the word PC addresses. -/
def Obligations.ProgramCounterRule : Prop :=
  (∀ i s t, exec i s = .next t → (∀ a, i ≠ .jmp a) → t.pc.toNat = (s.pc.toNat + 1) % 256) ∧
  (∀ a s t, exec (.jmp a) s = .next t → t.pc = a) ∧
  (∀ s why, phase s = .ready → decodeWord (romRead s.rom s.pc) = .illegal why → ∃ t, step s = .next t ∧ t.pc = s.pc) ∧
  (∀ s i, phase s = .ready → decodeWord (romRead s.rom s.pc) = .op i → step s = exec i s)

/-! ### The register write interface and the history -/

/-- R53: the five registers and their ids; no other id is a register; the hardwired bits of OUTEN, DIR and PWMCTL
are 0; what the registers hold after reset; and which operations write each. -/
def Obligations.InterfaceRegisterMap : Prop :=
  (∀ id : Byte, match ifRegOfId id with
    | .ok r => ifRegId r = id ∧ id.toNat ≤ 4
    | .error e => e = .noInterfaceRegister id ∧ 5 ≤ id.toNat) ∧
  [IfReg.ocr0, .ocr1, .outen, .dir, .pwmctl].map ifRegId = [0, 1, 2, 3, 4] ∧
  (∀ s v, ifRegValue s .outen = some v → v.toNat = 2 * s.en.ch1.toNat + s.en.ch0.toNat) ∧
  (∀ s v, ifRegValue s .dir = some v → v.toNat = 2 * s.dir.ch1.toNat + s.dir.ch0.toNat) ∧
  (∀ s v, ifRegValue s .pwmctl = some v → v.toNat = s.pwmOn.toNat) ∧
  (∀ seed rom, [IfReg.ocr0, .ocr1, .outen, .dir, .pwmctl].map (ifRegValue (State.powerOn seed rom)) =
    [none, none, some 0, some 0, some 0]) ∧
  (∀ i s t v, exec i s = .next t →
    (t.history = s.history ++ [.wr .ocr0 v] → i = .duty .ch0 ∨ i = .ocrw .ch0 v) ∧
    (t.history = s.history ++ [.wr .ocr1 v] → i = .duty .ch1 ∨ i = .ocrw .ch1 v) ∧
    (t.history = s.history ++ [.wr .outen v] → ∃ c b, i = .enset c b) ∧
    (t.history = s.history ++ [.wr .dir v] → ∃ m, i = .dirset m) ∧
    (t.history = s.history ++ [.wr .pwmctl v] → i = .pwmcfg))

/-- R54: an emitted event carries the register's whole new value, and events are appended in the order the
operations execute: an operation adds at most one event, at the end. -/
def Obligations.WritesCarryWholeRegister : Prop :=
  ∀ i s t, exec i s = .next t →
    (t.history = s.history ∧ ∀ r, ifRegValue t r = ifRegValue s r) ∨
    ∃ r v, t.history = s.history ++ [.wr r v] ∧ ifRegValue t r = some v ∧
      ∀ q, q ≠ r → ifRegValue t q = ifRegValue s q

/-- The history only grows, by at most one event a step, so none is lost, merged or reordered (R62). -/
def Obligations.HistoryOnlyGrows : Prop :=
  (∀ s t, step s = .next t → ∃ es, t.history = s.history ++ es ∧ es.length ≤ 1) ∧
  (∀ n s t, run n s = .next t → s.history <+: t.history)

/-- PWM_ON, once set, stays set over any run; reset clears it (R27, R158). -/
def Obligations.PwmStaysOn : Prop :=
  (∀ n s t, run n s = .next t → s.pwmOn = true → t.pwmOn = true) ∧ ∀ s, (resetEvent s).pwmOn = false

/-- The informative lamp output: off when not driven, the PWM symbol of a written threshold when PWM is on, else
the enable; an unwritten threshold gives no value, so between PWMCFG and the first write it faults; a larger
threshold means a pulse at least as wide (R58, R240, D8). -/
def Obligations.LampOutputReading : Prop :=
  ∀ (s : State) (c : Channel),
    (s.dir.get c = false → lampOutput s c = .ok .off) ∧
    (s.dir.get c = true → s.pwmOn = false → s.en.get c = true → lampOutput s c = .ok .on) ∧
    (s.dir.get c = true → s.pwmOn = false → s.en.get c = false → lampOutput s c = .ok .off) ∧
    (∀ v, s.dir.get c = true → s.pwmOn = true → s.ocr.get c = .written v → lampOutput s c = .ok (.pwm v)) ∧
    (∀ t, s.dir.get c = true → s.ocr.get c = .unwritten → exec .pwmcfg s = .next t →
      lampOutput t c = .error .thresholdUnwritten) ∧
    (∀ u v : Byte, LampOutput.pulseAtLeastAsWide (.pwm v) (.pwm u) = true ↔ u.toNat ≤ v.toNat)

/-! ### The ROM -/

/-- R52: no operation writes the ROM and no agent changes it: over any operation, any run and any schedule
every byte of it reads as before. -/
def Obligations.RomNeverChanges : Prop :=
  (∀ i s t, exec i s = .next t → ∀ a, readByte t.rom a = readByte s.rom a) ∧
  (∀ n s t, run n s = .next t → ∀ a, readByte t.rom a = readByte s.rom a) ∧
  (∀ turns s t, runSchedule turns s = .next t → ∀ a, readByte t.rom a = readByte s.rom a)

/-- A ROM parameter holds its program's words and 0x0000, which spells no operation, wherever the program fills
none; a word is its two bytes, low byte first (R51, R55). -/
def Obligations.RomHoldsItsProgram : Prop :=
  (∀ (p : List (Nat × Word)) (a : Byte), romRead (romOfProgram p) a = programWord p a.toNat ∧
    ((∀ q ∈ p, q.1 ≠ a.toNat) → romRead (romOfProgram p) a = 0x0000)) ∧
  (∀ (m : List Host.Cell) (a : Byte), (romRead m a).toNat =
    (readByte m (2 * a.toNat)).toNat + 256 * (readByte m (2 * a.toNat + 1)).toNat) ∧
  ∀ i, decodeWord 0x0000 ≠ .op i

/-- Two canonical ROM images with equal contents are equal lists (the model's form of memory, log entry 4). -/
def Obligations.CanonicalRomIsUnique : Prop :=
  ∀ m m' : List Host.Cell, Memory.wf m = true → Memory.wf m' = true →
    (∀ a, readByte m a = readByte m' a) → m = m'

/-- A word placed for the fetch is what the very next step runs: with the operation it decodes to, or the fault; and
no other word of the ROM changes (R51, R141; the placing is the model's, log entry 4). -/
def Obligations.PlacedWordRunsNext : Prop :=
  ∀ (s : State) (w : Word), Memory.wf s.rom = true →
    let s' := s.withFetchWord 16 w.toNat
    (∀ i, decodeWord w = .op i → step s' = exec i s') ∧
    (∀ why, decodeWord w = .illegal why → step s' = .next (raiseIllegalOp w s')) ∧
    ∀ a, a ≠ s.pc → romRead s'.rom a = romRead s.rom a

/-- The ROM after reset holds the reference content (R175; that the model's reset holds it is log entry 3). -/
def Obligations.ResetRomIsReference : Prop :=
  ∀ a : Byte, romRead State.reset.rom a =
    [0x5064, 0x8003, 0x7001, 0x52EE, 0x7000, 0x7101, 0x52EE, 0x7100,
     0x9000, 0x6032, 0x6132, 0x2000, 0x2100, 0x3000, 0x4000, 0xA00B].getD a.toNat 0x0000

/-! ### Reset, invariants and the cycle -/

/-- R35: every piece of state after reset, for every SEED and every ROM parameter, the thresholds unwritten; the
machine's own reset is such a state. -/
def Obligations.ResetValues : Prop :=
  (∀ (seed : Word) (rom : List Host.Cell),
    let s := State.powerOn seed rom
    s.lfsr = seed ∧ s.ocr.get .ch0 = .unwritten ∧ s.ocr.get .ch1 = .unwritten ∧
    s.dir.get .ch0 = false ∧ s.dir.get .ch1 = false ∧ s.en.get .ch0 = false ∧ s.en.get .ch1 = false ∧
    s.pwmOn = false ∧ s.dly = 0 ∧ s.wcnt = 0 ∧ s.pc = 0x00 ∧
    s.fault = false ∧ s.fcause = 0 ∧ s.fword = 0x0000) ∧
  ∃ (seed : Word) (rom : List Host.Cell), State.reset = State.powerOn seed rom

/-- After reset, whatever SEED and the ROM hold, the state is sound and READY with an empty history, and the first
step fetches ROM address 0x00 (R230, R231); the reset event gives such a state and keeps the ROM (R230, log
entry 10). -/
def Obligations.ResetIsSoundAndReady : Prop :=
  (∀ (seed : Word) (rom : List Host.Cell), Memory.wf rom = true →
    Sound (State.powerOn seed rom) ∧ phase (State.powerOn seed rom) = .ready ∧ (State.powerOn seed rom).history = [] ∧
    fetchWord (State.powerOn seed rom) = romRead rom 0x00) ∧
  Sound State.reset ∧
  ∀ s : State, (resetEvent s).rom = s.rom ∧ ∃ seed, resetEvent s = State.powerOn seed s.rom

/-- Every step keeps a state sound: the ROM image canonical, DLY a delay, the fault record and the history one
story, and the history replaying to the registers the external capability holds (R28, R31, R53, R54, R202). -/
def Obligations.StepKeepsSound : Prop :=
  ∀ s t, Sound s → step s = .next t → Sound t

/-- DUTY 0, DUTY 1, RDLY, WAITD, the ticks, and JMP, executed in turn, compute the pure function cycle, and the
history gains the two writes and then delay ticks (R164; a WAITING step is the tick, log entry 6). -/
def Obligations.CycleIsPureFunction : Prop :=
  ∀ (s : State) (a : Byte), s.fault = false →
    ∃ s1 s2 s3 s4 s5 s6,
      exec (.duty .ch0) s = .next s1 ∧ exec (.duty .ch1) s1 = .next s2 ∧ exec .rdly s2 = .next s3 ∧
      exec .waitd s3 = .next s4 ∧ run (cycle s.lfsr).delay.toNat s4 = .next s5 ∧ exec (.jmp a) s5 = .next s6 ∧
      phase s5 = .ready ∧ s6.pc = a ∧ s6.lfsr = (cycle s.lfsr).lfsr ∧ s6.dly = (cycle s.lfsr).delay ∧
      s6.ocr = ⟨.written (cycle s.lfsr).duty0, .written (cycle s.lfsr).duty1⟩ ∧
      s6.history = s.history ++ [.wr .ocr0 (cycle s.lfsr).duty0, .wr .ocr1 (cycle s.lfsr).duty1] ++
        List.replicate (cycle s.lfsr).delay.toNat .tick

/-- A wait in progress with n ticks left ends after exactly n of the machine's steps, each a recorded tick, and
until then the sequencer executes nothing (R29, R143, R144; a WAITING step is the tick, log entry 6). -/
def Obligations.WaitEndsAfterItsTicks : Prop :=
  ∀ (s : State) (k : Nat), s.fault = false → k ≤ s.wcnt.toNat →
    run k s = .next { s with
      wcnt := BitVec.ofNat 12 (s.wcnt.toNat - k), history := s.history ++ List.replicate k .tick }
end

