-- ==== Sys2Proof/Laws/Decode.lean ====
section
/-! SUPPORT. Small lemmas of the syntax and the decoder. -/

namespace Sys2Proof

theorem Channel.toNat_lt (c : Channel) : c.toNat < 2 := by cases c <;> decide

/-- The operands of Instr have the encoding's own widths, so every instruction is well formed (R82). -/
theorem wellFormed_all (i : Instr) : i.wellFormed = true := by
  cases i with
  | draw | rdly | waitd | pwmcfg => rfl
  | duty c => simpa [Instr.wellFormed, Instr.toAsm, AsmOp.wellFormed] using c.toNat_lt
  | waitms n => simpa [Instr.wellFormed, Instr.toAsm, AsmOp.wellFormed] using n.isLt
  | ocrw c n => simp [Instr.wellFormed, Instr.toAsm, AsmOp.wellFormed, c.toNat_lt, n.isLt]
  | enset c v => simp [Instr.wellFormed, Instr.toAsm, AsmOp.wellFormed, c.toNat_lt, v.toNat_lt]
  | dirset m => simpa [Instr.wellFormed, Instr.toAsm, AsmOp.wellFormed] using m.isLt
  | jmp t => simpa [Instr.wellFormed, Instr.toAsm, AsmOp.wellFormed] using t.isLt

@[simp] theorem whenZero_true (op : BitVec 4) (i : Instr) : whenZero op true i = .op i := rfl

@[simp] theorem whenZero_false (op : BitVec 4) (i : Instr) : whenZero op false i = .illegal (.reservedBitSet op) := rfl

theorem whenZero_eq_op {op : BitVec 4} {z : Bool} {i j : Instr} :
    whenZero op z i = .op j ↔ z = true ∧ i = j := by
  cases z <;> simp

end Sys2Proof
end

