-- ==== Sys2Proof/Laws/State.lean ====
section
/-! SUPPORT. What each named update does to each field of State: one lemma a field, true by rfl, in the simp
set; and the channel pairs. -/

namespace Sys2Proof.Machine

section Fields
variable (s : State)

@[simp] theorem setLfsr_rom (n : Word) : (setLfsr n s).rom = s.rom := rfl
@[simp] theorem setLfsr_lfsr (n : Word) : (setLfsr n s).lfsr = n := rfl
@[simp] theorem setLfsr_ocr (n : Word) : (setLfsr n s).ocr = s.ocr := rfl
@[simp] theorem setLfsr_dir (n : Word) : (setLfsr n s).dir = s.dir := rfl
@[simp] theorem setLfsr_en (n : Word) : (setLfsr n s).en = s.en := rfl
@[simp] theorem setLfsr_pwmOn (n : Word) : (setLfsr n s).pwmOn = s.pwmOn := rfl
@[simp] theorem setLfsr_dly (n : Word) : (setLfsr n s).dly = s.dly := rfl
@[simp] theorem setLfsr_wcnt (n : Word) : (setLfsr n s).wcnt = s.wcnt := rfl
@[simp] theorem setLfsr_pc (n : Word) : (setLfsr n s).pc = s.pc := rfl
@[simp] theorem setLfsr_fault (n : Word) : (setLfsr n s).fault = s.fault := rfl
@[simp] theorem setLfsr_fcause (n : Word) : (setLfsr n s).fcause = s.fcause := rfl
@[simp] theorem setLfsr_fword (n : Word) : (setLfsr n s).fword = s.fword := rfl
@[simp] theorem setLfsr_history (n : Word) : (setLfsr n s).history = s.history := rfl

@[simp] theorem setOcr_rom (c : Channel) (v : Byte) : (setOcr c v s).rom = s.rom := rfl
@[simp] theorem setOcr_lfsr (c : Channel) (v : Byte) : (setOcr c v s).lfsr = s.lfsr := rfl
@[simp] theorem setOcr_ocr (c : Channel) (v : Byte) : (setOcr c v s).ocr = s.ocr.set c (.written v) := rfl
@[simp] theorem setOcr_dir (c : Channel) (v : Byte) : (setOcr c v s).dir = s.dir := rfl
@[simp] theorem setOcr_en (c : Channel) (v : Byte) : (setOcr c v s).en = s.en := rfl
@[simp] theorem setOcr_pwmOn (c : Channel) (v : Byte) : (setOcr c v s).pwmOn = s.pwmOn := rfl
@[simp] theorem setOcr_dly (c : Channel) (v : Byte) : (setOcr c v s).dly = s.dly := rfl
@[simp] theorem setOcr_wcnt (c : Channel) (v : Byte) : (setOcr c v s).wcnt = s.wcnt := rfl
@[simp] theorem setOcr_pc (c : Channel) (v : Byte) : (setOcr c v s).pc = s.pc := rfl
@[simp] theorem setOcr_fault (c : Channel) (v : Byte) : (setOcr c v s).fault = s.fault := rfl
@[simp] theorem setOcr_fcause (c : Channel) (v : Byte) : (setOcr c v s).fcause = s.fcause := rfl
@[simp] theorem setOcr_fword (c : Channel) (v : Byte) : (setOcr c v s).fword = s.fword := rfl
@[simp] theorem setOcr_history (c : Channel) (v : Byte) : (setOcr c v s).history = s.history := rfl

@[simp] theorem setDir_rom (d : PerChannel Bool) : (setDir d s).rom = s.rom := rfl
@[simp] theorem setDir_lfsr (d : PerChannel Bool) : (setDir d s).lfsr = s.lfsr := rfl
@[simp] theorem setDir_ocr (d : PerChannel Bool) : (setDir d s).ocr = s.ocr := rfl
@[simp] theorem setDir_dir (d : PerChannel Bool) : (setDir d s).dir = d := rfl
@[simp] theorem setDir_en (d : PerChannel Bool) : (setDir d s).en = s.en := rfl
@[simp] theorem setDir_pwmOn (d : PerChannel Bool) : (setDir d s).pwmOn = s.pwmOn := rfl
@[simp] theorem setDir_dly (d : PerChannel Bool) : (setDir d s).dly = s.dly := rfl
@[simp] theorem setDir_wcnt (d : PerChannel Bool) : (setDir d s).wcnt = s.wcnt := rfl
@[simp] theorem setDir_pc (d : PerChannel Bool) : (setDir d s).pc = s.pc := rfl
@[simp] theorem setDir_fault (d : PerChannel Bool) : (setDir d s).fault = s.fault := rfl
@[simp] theorem setDir_fcause (d : PerChannel Bool) : (setDir d s).fcause = s.fcause := rfl
@[simp] theorem setDir_fword (d : PerChannel Bool) : (setDir d s).fword = s.fword := rfl
@[simp] theorem setDir_history (d : PerChannel Bool) : (setDir d s).history = s.history := rfl

@[simp] theorem setEn_rom (c : Channel) (v : Bool) : (setEn c v s).rom = s.rom := rfl
@[simp] theorem setEn_lfsr (c : Channel) (v : Bool) : (setEn c v s).lfsr = s.lfsr := rfl
@[simp] theorem setEn_ocr (c : Channel) (v : Bool) : (setEn c v s).ocr = s.ocr := rfl
@[simp] theorem setEn_dir (c : Channel) (v : Bool) : (setEn c v s).dir = s.dir := rfl
@[simp] theorem setEn_en (c : Channel) (v : Bool) : (setEn c v s).en = s.en.set c v := rfl
@[simp] theorem setEn_pwmOn (c : Channel) (v : Bool) : (setEn c v s).pwmOn = s.pwmOn := rfl
@[simp] theorem setEn_dly (c : Channel) (v : Bool) : (setEn c v s).dly = s.dly := rfl
@[simp] theorem setEn_wcnt (c : Channel) (v : Bool) : (setEn c v s).wcnt = s.wcnt := rfl
@[simp] theorem setEn_pc (c : Channel) (v : Bool) : (setEn c v s).pc = s.pc := rfl
@[simp] theorem setEn_fault (c : Channel) (v : Bool) : (setEn c v s).fault = s.fault := rfl
@[simp] theorem setEn_fcause (c : Channel) (v : Bool) : (setEn c v s).fcause = s.fcause := rfl
@[simp] theorem setEn_fword (c : Channel) (v : Bool) : (setEn c v s).fword = s.fword := rfl
@[simp] theorem setEn_history (c : Channel) (v : Bool) : (setEn c v s).history = s.history := rfl

@[simp] theorem setPwmOn_rom : (setPwmOn s).rom = s.rom := rfl
@[simp] theorem setPwmOn_lfsr : (setPwmOn s).lfsr = s.lfsr := rfl
@[simp] theorem setPwmOn_ocr : (setPwmOn s).ocr = s.ocr := rfl
@[simp] theorem setPwmOn_dir : (setPwmOn s).dir = s.dir := rfl
@[simp] theorem setPwmOn_en : (setPwmOn s).en = s.en := rfl
@[simp] theorem setPwmOn_pwmOn : (setPwmOn s).pwmOn = true := rfl
@[simp] theorem setPwmOn_dly : (setPwmOn s).dly = s.dly := rfl
@[simp] theorem setPwmOn_wcnt : (setPwmOn s).wcnt = s.wcnt := rfl
@[simp] theorem setPwmOn_pc : (setPwmOn s).pc = s.pc := rfl
@[simp] theorem setPwmOn_fault : (setPwmOn s).fault = s.fault := rfl
@[simp] theorem setPwmOn_fcause : (setPwmOn s).fcause = s.fcause := rfl
@[simp] theorem setPwmOn_fword : (setPwmOn s).fword = s.fword := rfl
@[simp] theorem setPwmOn_history : (setPwmOn s).history = s.history := rfl

@[simp] theorem setDly_rom (d : BitVec 6) : (setDly d s).rom = s.rom := rfl
@[simp] theorem setDly_lfsr (d : BitVec 6) : (setDly d s).lfsr = s.lfsr := rfl
@[simp] theorem setDly_ocr (d : BitVec 6) : (setDly d s).ocr = s.ocr := rfl
@[simp] theorem setDly_dir (d : BitVec 6) : (setDly d s).dir = s.dir := rfl
@[simp] theorem setDly_en (d : BitVec 6) : (setDly d s).en = s.en := rfl
@[simp] theorem setDly_pwmOn (d : BitVec 6) : (setDly d s).pwmOn = s.pwmOn := rfl
@[simp] theorem setDly_dly (d : BitVec 6) : (setDly d s).dly = d := rfl
@[simp] theorem setDly_wcnt (d : BitVec 6) : (setDly d s).wcnt = s.wcnt := rfl
@[simp] theorem setDly_pc (d : BitVec 6) : (setDly d s).pc = s.pc := rfl
@[simp] theorem setDly_fault (d : BitVec 6) : (setDly d s).fault = s.fault := rfl
@[simp] theorem setDly_fcause (d : BitVec 6) : (setDly d s).fcause = s.fcause := rfl
@[simp] theorem setDly_fword (d : BitVec 6) : (setDly d s).fword = s.fword := rfl
@[simp] theorem setDly_history (d : BitVec 6) : (setDly d s).history = s.history := rfl

@[simp] theorem setWcnt_rom (n : BitVec 12) : (setWcnt n s).rom = s.rom := rfl
@[simp] theorem setWcnt_lfsr (n : BitVec 12) : (setWcnt n s).lfsr = s.lfsr := rfl
@[simp] theorem setWcnt_ocr (n : BitVec 12) : (setWcnt n s).ocr = s.ocr := rfl
@[simp] theorem setWcnt_dir (n : BitVec 12) : (setWcnt n s).dir = s.dir := rfl
@[simp] theorem setWcnt_en (n : BitVec 12) : (setWcnt n s).en = s.en := rfl
@[simp] theorem setWcnt_pwmOn (n : BitVec 12) : (setWcnt n s).pwmOn = s.pwmOn := rfl
@[simp] theorem setWcnt_dly (n : BitVec 12) : (setWcnt n s).dly = s.dly := rfl
@[simp] theorem setWcnt_wcnt (n : BitVec 12) : (setWcnt n s).wcnt = n := rfl
@[simp] theorem setWcnt_pc (n : BitVec 12) : (setWcnt n s).pc = s.pc := rfl
@[simp] theorem setWcnt_fault (n : BitVec 12) : (setWcnt n s).fault = s.fault := rfl
@[simp] theorem setWcnt_fcause (n : BitVec 12) : (setWcnt n s).fcause = s.fcause := rfl
@[simp] theorem setWcnt_fword (n : BitVec 12) : (setWcnt n s).fword = s.fword := rfl
@[simp] theorem setWcnt_history (n : BitVec 12) : (setWcnt n s).history = s.history := rfl

@[simp] theorem setPc_rom (t : Byte) : (setPc t s).rom = s.rom := rfl
@[simp] theorem setPc_lfsr (t : Byte) : (setPc t s).lfsr = s.lfsr := rfl
@[simp] theorem setPc_ocr (t : Byte) : (setPc t s).ocr = s.ocr := rfl
@[simp] theorem setPc_dir (t : Byte) : (setPc t s).dir = s.dir := rfl
@[simp] theorem setPc_en (t : Byte) : (setPc t s).en = s.en := rfl
@[simp] theorem setPc_pwmOn (t : Byte) : (setPc t s).pwmOn = s.pwmOn := rfl
@[simp] theorem setPc_dly (t : Byte) : (setPc t s).dly = s.dly := rfl
@[simp] theorem setPc_wcnt (t : Byte) : (setPc t s).wcnt = s.wcnt := rfl
@[simp] theorem setPc_pc (t : Byte) : (setPc t s).pc = t := rfl
@[simp] theorem setPc_fault (t : Byte) : (setPc t s).fault = s.fault := rfl
@[simp] theorem setPc_fcause (t : Byte) : (setPc t s).fcause = s.fcause := rfl
@[simp] theorem setPc_fword (t : Byte) : (setPc t s).fword = s.fword := rfl
@[simp] theorem setPc_history (t : Byte) : (setPc t s).history = s.history := rfl

@[simp] theorem advancePc_rom : (advancePc s).rom = s.rom := rfl
@[simp] theorem advancePc_lfsr : (advancePc s).lfsr = s.lfsr := rfl
@[simp] theorem advancePc_ocr : (advancePc s).ocr = s.ocr := rfl
@[simp] theorem advancePc_dir : (advancePc s).dir = s.dir := rfl
@[simp] theorem advancePc_en : (advancePc s).en = s.en := rfl
@[simp] theorem advancePc_pwmOn : (advancePc s).pwmOn = s.pwmOn := rfl
@[simp] theorem advancePc_dly : (advancePc s).dly = s.dly := rfl
@[simp] theorem advancePc_wcnt : (advancePc s).wcnt = s.wcnt := rfl
@[simp] theorem advancePc_pc : (advancePc s).pc = s.pc + 1 := rfl
@[simp] theorem advancePc_fault : (advancePc s).fault = s.fault := rfl
@[simp] theorem advancePc_fcause : (advancePc s).fcause = s.fcause := rfl
@[simp] theorem advancePc_fword : (advancePc s).fword = s.fword := rfl
@[simp] theorem advancePc_history : (advancePc s).history = s.history := rfl

@[simp] theorem draw_rom : (draw s).rom = s.rom := rfl
@[simp] theorem draw_lfsr : (draw s).lfsr = lfsrNext s.lfsr := rfl
@[simp] theorem draw_ocr : (draw s).ocr = s.ocr := rfl
@[simp] theorem draw_dir : (draw s).dir = s.dir := rfl
@[simp] theorem draw_en : (draw s).en = s.en := rfl
@[simp] theorem draw_pwmOn : (draw s).pwmOn = s.pwmOn := rfl
@[simp] theorem draw_dly : (draw s).dly = s.dly := rfl
@[simp] theorem draw_wcnt : (draw s).wcnt = s.wcnt := rfl
@[simp] theorem draw_pc : (draw s).pc = s.pc := rfl
@[simp] theorem draw_fault : (draw s).fault = s.fault := rfl
@[simp] theorem draw_fcause : (draw s).fcause = s.fcause := rfl
@[simp] theorem draw_fword : (draw s).fword = s.fword := rfl
@[simp] theorem draw_history : (draw s).history = s.history := rfl

@[simp] theorem record_rom (e : Event) : (record e s).rom = s.rom := rfl
@[simp] theorem record_lfsr (e : Event) : (record e s).lfsr = s.lfsr := rfl
@[simp] theorem record_ocr (e : Event) : (record e s).ocr = s.ocr := rfl
@[simp] theorem record_dir (e : Event) : (record e s).dir = s.dir := rfl
@[simp] theorem record_en (e : Event) : (record e s).en = s.en := rfl
@[simp] theorem record_pwmOn (e : Event) : (record e s).pwmOn = s.pwmOn := rfl
@[simp] theorem record_dly (e : Event) : (record e s).dly = s.dly := rfl
@[simp] theorem record_wcnt (e : Event) : (record e s).wcnt = s.wcnt := rfl
@[simp] theorem record_pc (e : Event) : (record e s).pc = s.pc := rfl
@[simp] theorem record_fault (e : Event) : (record e s).fault = s.fault := rfl
@[simp] theorem record_fcause (e : Event) : (record e s).fcause = s.fcause := rfl
@[simp] theorem record_fword (e : Event) : (record e s).fword = s.fword := rfl
@[simp] theorem record_history (e : Event) : (record e s).history = s.history ++ [e] := rfl

@[simp] theorem emit_rom (r : IfReg) (v : Byte) : (emit r v s).rom = s.rom := rfl
@[simp] theorem emit_lfsr (r : IfReg) (v : Byte) : (emit r v s).lfsr = s.lfsr := rfl
@[simp] theorem emit_ocr (r : IfReg) (v : Byte) : (emit r v s).ocr = s.ocr := rfl
@[simp] theorem emit_dir (r : IfReg) (v : Byte) : (emit r v s).dir = s.dir := rfl
@[simp] theorem emit_en (r : IfReg) (v : Byte) : (emit r v s).en = s.en := rfl
@[simp] theorem emit_pwmOn (r : IfReg) (v : Byte) : (emit r v s).pwmOn = s.pwmOn := rfl
@[simp] theorem emit_dly (r : IfReg) (v : Byte) : (emit r v s).dly = s.dly := rfl
@[simp] theorem emit_wcnt (r : IfReg) (v : Byte) : (emit r v s).wcnt = s.wcnt := rfl
@[simp] theorem emit_pc (r : IfReg) (v : Byte) : (emit r v s).pc = s.pc := rfl
@[simp] theorem emit_fault (r : IfReg) (v : Byte) : (emit r v s).fault = s.fault := rfl
@[simp] theorem emit_fcause (r : IfReg) (v : Byte) : (emit r v s).fcause = s.fcause := rfl
@[simp] theorem emit_fword (r : IfReg) (v : Byte) : (emit r v s).fword = s.fword := rfl
@[simp] theorem emit_history (r : IfReg) (v : Byte) : (emit r v s).history = s.history ++ [.wr r v] := rfl

@[simp] theorem raiseIllegalOp_rom (w : Word) : (raiseIllegalOp w s).rom = s.rom := rfl
@[simp] theorem raiseIllegalOp_lfsr (w : Word) : (raiseIllegalOp w s).lfsr = s.lfsr := rfl
@[simp] theorem raiseIllegalOp_ocr (w : Word) : (raiseIllegalOp w s).ocr = s.ocr := rfl
@[simp] theorem raiseIllegalOp_dir (w : Word) : (raiseIllegalOp w s).dir = s.dir := rfl
@[simp] theorem raiseIllegalOp_en (w : Word) : (raiseIllegalOp w s).en = s.en := rfl
@[simp] theorem raiseIllegalOp_pwmOn (w : Word) : (raiseIllegalOp w s).pwmOn = s.pwmOn := rfl
@[simp] theorem raiseIllegalOp_dly (w : Word) : (raiseIllegalOp w s).dly = s.dly := rfl
@[simp] theorem raiseIllegalOp_wcnt (w : Word) : (raiseIllegalOp w s).wcnt = s.wcnt := rfl
@[simp] theorem raiseIllegalOp_pc (w : Word) : (raiseIllegalOp w s).pc = s.pc := rfl
@[simp] theorem raiseIllegalOp_fault (w : Word) : (raiseIllegalOp w s).fault = true := rfl
@[simp] theorem raiseIllegalOp_fcause (w : Word) : (raiseIllegalOp w s).fcause = causeIllegalOp := rfl
@[simp] theorem raiseIllegalOp_fword (w : Word) : (raiseIllegalOp w s).fword = w := rfl
@[simp] theorem raiseIllegalOp_history (w : Word) : (raiseIllegalOp w s).history = s.history ++ [.fault s.pc w] := rfl

@[simp] theorem setFetchWord_rom (w : Word) : (setFetchWord w s).rom = loadWord s.rom s.pc w := rfl
@[simp] theorem setFetchWord_lfsr (w : Word) : (setFetchWord w s).lfsr = s.lfsr := rfl
@[simp] theorem setFetchWord_ocr (w : Word) : (setFetchWord w s).ocr = s.ocr := rfl
@[simp] theorem setFetchWord_dir (w : Word) : (setFetchWord w s).dir = s.dir := rfl
@[simp] theorem setFetchWord_en (w : Word) : (setFetchWord w s).en = s.en := rfl
@[simp] theorem setFetchWord_pwmOn (w : Word) : (setFetchWord w s).pwmOn = s.pwmOn := rfl
@[simp] theorem setFetchWord_dly (w : Word) : (setFetchWord w s).dly = s.dly := rfl
@[simp] theorem setFetchWord_wcnt (w : Word) : (setFetchWord w s).wcnt = 0 := rfl
@[simp] theorem setFetchWord_pc (w : Word) : (setFetchWord w s).pc = s.pc := rfl
@[simp] theorem setFetchWord_fault (w : Word) : (setFetchWord w s).fault = false := rfl
@[simp] theorem setFetchWord_fcause (w : Word) : (setFetchWord w s).fcause = s.fcause := rfl
@[simp] theorem setFetchWord_fword (w : Word) : (setFetchWord w s).fword = s.fword := rfl
@[simp] theorem setFetchWord_history (w : Word) : (setFetchWord w s).history = s.history := rfl

end Fields

section Channels
variable {α : Type} (p : PerChannel α) (v : α)

@[simp] theorem PerChannel.get_set_same (c : Channel) : (p.set c v).get c = v := by cases c <;> rfl

@[simp] theorem PerChannel.get_set_ch0_ch1 : (p.set .ch0 v).get .ch1 = p.get .ch1 := rfl

@[simp] theorem PerChannel.get_set_ch1_ch0 : (p.set .ch1 v).get .ch0 = p.get .ch0 := rfl

theorem PerChannel.get_set_other {c d : Channel} (h : d ≠ c) : (p.set c v).get d = p.get d := by
  cases c <;> cases d <;> simp_all [PerChannel.get, PerChannel.set]

theorem PerChannel.ext_get {p q : PerChannel α} (h : ∀ c, p.get c = q.get c) : p = q := by
  obtain ⟨a, b⟩ := p
  have h0 := h .ch0
  have h1 := h .ch1
  simp_all [PerChannel.get]

end Channels

end Sys2Proof.Machine
end

