-- ==== Sys2Proof/Laws/Memory.lean ====
section
/-! SUPPORT. The laws of the ROM image: a read after a write, and that every operation keeps the canonical
form. -/

namespace Sys2Proof.Machine

theorem canonicalFrom_cons {lo k : Nat} {b : Byte} {m : List Host.Cell} :
    canonicalFrom lo ((k, b) :: m) = true ↔
      lo ≤ k ∧ k < romBytes ∧ b ≠ unlistedByte k ∧ canonicalFrom (k + 1) m = true := by
  simp [canonicalFrom, and_assoc]

theorem canonicalFrom_mono {lo lo' : Nat} {m : List Host.Cell} (h : canonicalFrom lo m = true) (hle : lo' ≤ lo) :
    canonicalFrom lo' m = true := by
  cases m with
  | nil => rfl
  | cons c m =>
    obtain ⟨k, b⟩ := c
    rw [canonicalFrom_cons] at h ⊢
    exact ⟨by omega, h.2⟩

/-- Below its first address a canonical image lists nothing. -/
theorem readByte_below {lo a : Nat} {m : List Host.Cell} (h : canonicalFrom lo m = true) (ha : a < lo) :
    readByte m a = unlistedByte a := by
  induction m generalizing lo with
  | nil => rfl
  | cons c m ih =>
    obtain ⟨k, b⟩ := c
    rw [canonicalFrom_cons] at h
    rw [readByte, if_neg (by omega)]
    exact ih h.2.2.2 (by omega)

theorem writeByte_canonicalFrom {lo a : Nat} {m : List Host.Cell} (v : Byte) (h : canonicalFrom lo m = true)
    (hlo : lo ≤ a) (ha : a < romBytes) : canonicalFrom lo (writeByte m a v) = true := by
  induction m generalizing lo with
  | nil => by_cases hv : v = unlistedByte a <;> simp [writeByte, hv, canonicalFrom, hlo, ha]
  | cons c m ih =>
    obtain ⟨k, b⟩ := c
    have hc := canonicalFrom_cons.1 h
    obtain ⟨hk, hr, hb, hm⟩ := hc
    rw [writeByte]
    split_ifs with h1 h2 h3 h4
    · exact h
    · exact canonicalFrom_cons.2 ⟨hlo, ha, h2, canonicalFrom_cons.2 ⟨by omega, hr, hb, hm⟩⟩
    · exact canonicalFrom_mono hm (by omega)
    · subst h3
      exact canonicalFrom_cons.2 ⟨hlo, ha, h4, hm⟩
    · exact canonicalFrom_cons.2 ⟨hk, hr, hb, ih hm (by omega)⟩

theorem readByte_writeByte_same {lo a : Nat} {m : List Host.Cell} (v : Byte) (h : canonicalFrom lo m = true) :
    readByte (writeByte m a v) a = v := by
  induction m generalizing lo with
  | nil => by_cases hv : v = unlistedByte a <;> simp [writeByte, hv, readByte]
  | cons c m ih =>
    obtain ⟨k, b⟩ := c
    obtain ⟨_, _, _, hm⟩ := canonicalFrom_cons.1 h
    rw [writeByte]
    split_ifs with h1 h2 h3 h4
    · rw [readByte, if_neg (by omega), readByte_below hm (by omega), h2]
    · simp [readByte]
    · rw [readByte_below hm (by omega), h4]
    · simp [readByte]
    · rw [readByte, if_neg h3, ih hm]

theorem readByte_writeByte_other {a x : Nat} (m : List Host.Cell) (v : Byte) (hx : x ≠ a) :
    readByte (writeByte m a v) x = readByte m x := by
  induction m with
  | nil => by_cases hv : v = unlistedByte a <;> simp [writeByte, hv, readByte, hx]
  | cons c m ih =>
    obtain ⟨k, b⟩ := c
    rw [writeByte]
    split_ifs with h1 h2 h3 h4
    · rfl
    · simp [readByte, hx]
    · simp [readByte, ← h3, hx]
    · simp [readByte, ← h3, hx]
    · simp [readByte, ih]

theorem wf_writeByte {a : Nat} {m : List Host.Cell} (v : Byte) (h : Memory.wf m = true) (ha : a < romBytes) :
    Memory.wf (writeByte m a v) = true :=
  writeByte_canonicalFrom v h (Nat.zero_le a) ha

theorem byteAddr_lt (a : Byte) : 2 * a.toNat + 1 < romBytes := by
  have : a.toNat < 256 := a.isLt
  simp only [romBytes, Config.romDepth]
  omega

theorem wf_loadWord {m : List Host.Cell} (a : Byte) (w : Word) (h : Memory.wf m = true) :
    Memory.wf (loadWord m a w) = true := by
  have := byteAddr_lt a
  exact wf_writeByte _ (wf_writeByte _ h (by omega)) this

theorem wordOfBytes_imageByte (w : Word) : wordOfBytes (imageByte w 0) (imageByte w 1) = w := by
  have h : wordOfBytes (imageByte w 0) (imageByte w 1) = w.extractLsb' 8 8 ++ w.extractLsb' 0 8 := rfl
  rw [h]
  ext i hi
  simp only [BitVec.getElem_append, BitVec.getElem_extractLsb']
  split_ifs with h8
  · simp [BitVec.getLsbD_eq_getElem hi]
  · rw [show 8 + (i - 8) = i by omega, BitVec.getLsbD_eq_getElem hi]

/-- A loaded word is what the fetch reads there. -/
theorem romRead_loadWord_same {m : List Host.Cell} (a : Byte) (w : Word) (h : Memory.wf m = true) :
    romRead (loadWord m a w) a = w := by
  have ha := byteAddr_lt a
  have h1 : Memory.wf (writeByte m (2 * a.toNat) (imageByte w 0)) = true := wf_writeByte _ h (by omega)
  rw [romRead, loadWord, readByte_writeByte_other _ _ (by omega), readByte_writeByte_same _ h,
    readByte_writeByte_same _ h1, wordOfBytes_imageByte]

/-- Loading a word leaves every other word alone. -/
theorem romRead_loadWord_other {a x : Byte} (m : List Host.Cell) (w : Word) (hx : x ≠ a) :
    romRead (loadWord m a w) x = romRead m x := by
  have hne : x.toNat ≠ a.toNat := fun e => hx (BitVec.eq_of_toNat_eq e)
  simp only [romRead, loadWord]
  rw [readByte_writeByte_other _ _ (by omega), readByte_writeByte_other _ _ (by omega),
    readByte_writeByte_other _ _ (by omega), readByte_writeByte_other _ _ (by omega)]

theorem canonicalFrom_filterMap (f : Nat → Byte) (n lo : Nat) (h : lo + n ≤ romBytes) :
    canonicalFrom lo ((List.range' lo n).filterMap fun a =>
      if f a = unlistedByte a then none else some (a, f a)) = true := by
  induction n generalizing lo with
  | zero => rfl
  | succ n ih =>
    rw [List.range'_succ, List.filterMap_cons]
    have hm := ih (lo + 1) (by omega)
    by_cases hv : f lo = unlistedByte lo
    · simpa [hv] using canonicalFrom_mono hm (by omega)
    · simpa [hv] using canonicalFrom_cons.2 ⟨le_refl lo, by omega, hv, hm⟩

theorem wf_romOfProgram (p : List (Nat × Word)) : Memory.wf (romOfProgram p) = true := by
  have h := canonicalFrom_filterMap (fun a => imageByte (programWord p (a / 2)) (a % 2)) romBytes 0 (by omega)
  rw [← List.range_eq_range'] at h
  exact h

theorem wf_reset : Memory.wf State.reset.rom = true := rfl

end Sys2Proof.Machine
end

