-- ==== Sys2Proof/Laws/PerInstr.lean ====
section
/-! SUPPORT. Statements about every operation as syntax, one lemma a constructor. Family Fixed: the word an
operation is encoded to passes its own row's test of the opcode map (30_encoding.md R74). -/

namespace Sys2Proof.Laws.Fixed

def Statement (i : Instr) : Prop := matchesRow (encode i) i = true

theorem draw : Statement .draw := rfl

theorem duty (c : Channel) : Statement (.duty c) := by cases c <;> rfl

theorem rdly : Statement .rdly := rfl

theorem waitd : Statement .waitd := rfl

theorem waitms (n : BitVec 12) : Statement (.waitms n) := by
  have h : (0x5#4 ++ n) &&& (0xF#4 ++ 0#12) = 0x5#4 ++ 0#12 := by
    rw [BitVec.and_append, BitVec.and_zero]
    rfl
  exact beq_iff_eq.2 h

theorem ocrw (c : Channel) (n : Byte) : Statement (.ocrw c n) := by
  have h : (0x6#4 ++ 0#3 ++ c.bit ++ n) &&& (0xFE#8 ++ 0#8) = 0x60#8 ++ 0#8 := by
    rw [BitVec.and_append, BitVec.and_zero]
    cases c <;> rfl
  exact beq_iff_eq.2 h

theorem enset (c : Channel) (v : Bool) : Statement (.enset c v) := by cases c <;> cases v <;> rfl

theorem dirset (m : BitVec 2) : Statement (.dirset m) := by
  revert m
  unfold Statement
  decide

theorem pwmcfg : Statement .pwmcfg := rfl

theorem jmp (t : Byte) : Statement (.jmp t) := by
  have h : (0xA#4 ++ 0#4 ++ t) &&& (0xFF#8 ++ 0#8) = 0xA0#8 ++ 0#8 := by
    rw [BitVec.and_append, BitVec.and_zero]
    rfl
  exact beq_iff_eq.2 h

end Sys2Proof.Laws.Fixed
end

