-- ==== Sys2Proof/Laws/Step.lean ====
section
/-! SUPPORT. What the shared operations can do, said once: the tick, an agent's turn, the sequencer's step
and the machine's step, by cases; and each arm of exec as the updates it makes. -/

namespace Sys2Proof.Machine

section Arms
variable (s : State)

theorem exec_draw : exec .draw s = .next (advancePc (draw s)) := rfl

theorem exec_duty (c : Channel) : exec (.duty c) s =
    .next (advancePc (emit (ocrReg c) (dutyOf (lfsrNext s.lfsr)) (setOcr c (dutyOf (lfsrNext s.lfsr)) (draw s)))) := rfl

theorem exec_rdly : exec .rdly s = .next (advancePc (setDly (delayOf (lfsrNext s.lfsr)) (draw s))) := rfl

theorem exec_waitd : exec .waitd s = .next (advancePc (setWcnt (delayTicks s.dly) s)) := rfl

theorem exec_waitms (n : BitVec 12) : exec (.waitms n) s = .next (advancePc (setWcnt n s)) := rfl

theorem exec_ocrw (c : Channel) (n : Byte) :
    exec (.ocrw c n) s = .next (advancePc (emit (ocrReg c) n (setOcr c n s))) := rfl

theorem exec_enset (c : Channel) (v : Bool) : exec (.enset c v) s =
    .next (advancePc (emit .outen (pairByte (s.en.set c v)) (setEn c v s))) := rfl

theorem exec_dirset (m : BitVec 2) :
    exec (.dirset m) s = .next (advancePc (emit .dir (m.setWidth 8) (setDir (maskChannels m) s))) := rfl

theorem exec_pwmcfg : exec .pwmcfg s = .next (advancePc (emit .pwmctl 0x01 (setPwmOn s))) := rfl

theorem exec_jmp (t : Byte) : exec (.jmp t) s = .next (setPc t s) := rfl

end Arms

theorem phase_eq_faulted {s : State} : phase s = .faulted ↔ s.fault = true := by
  unfold phase
  split_ifs <;> simp_all

theorem phase_eq_waiting {s : State} : phase s = .waiting ↔ s.fault = false ∧ s.wcnt ≠ 0 := by
  unfold phase
  split_ifs <;> simp_all

theorem phase_eq_ready {s : State} : phase s = .ready ↔ s.fault = false ∧ s.wcnt = 0 := by
  unfold phase
  split_ifs <;> simp_all

theorem tickStep_idle {s : State} (h : s.wcnt = 0) : tickStep s = s := if_pos h

theorem tickStep_busy {s : State} (h : s.wcnt ≠ 0) : tickStep s = record .tick (setWcnt (s.wcnt - 1) s) := if_neg h

theorem sequencerStep_op {s : State} {i : Instr} (h : decodeWord (fetchWord s) = .op i) :
    sequencerStep s = exec i s := by
  simp only [sequencerStep, h]

theorem sequencerStep_illegal {s : State} {why : IllegalReason} (h : decodeWord (fetchWord s) = .illegal why) :
    sequencerStep s = .next (raiseIllegalOp (fetchWord s) s) := by
  simp only [sequencerStep, h]

/-- The sequencer's step either executes the decoded operation or takes the fault. -/
theorem sequencerStep_cases (s : State) :
    (∃ i, decodeWord (fetchWord s) = .op i ∧ sequencerStep s = exec i s) ∨
    (∃ why, decodeWord (fetchWord s) = .illegal why ∧ sequencerStep s = .next (raiseIllegalOp (fetchWord s) s)) := by
  cases h : decodeWord (fetchWord s) with
  | op i => exact .inl ⟨i, rfl, sequencerStep_op h⟩
  | illegal why => exact .inr ⟨why, rfl, sequencerStep_illegal h⟩

theorem step_of_faulted {s : State} (h : s.fault = true) : step s = .fault (stuckReason s) := by
  simp only [step, machineStep, phase_eq_faulted.2 h]

theorem step_of_waiting {s : State} (hf : s.fault = false) (hw : s.wcnt ≠ 0) : step s = .next (tickStep s) := by
  simp only [step, machineStep, phase_eq_waiting.2 ⟨hf, hw⟩]

theorem step_of_ready {s : State} (hf : s.fault = false) (hw : s.wcnt = 0) : step s = sequencerStep s := by
  simp only [step, machineStep, phase_eq_ready.2 ⟨hf, hw⟩]

/-- All a step to a next state can be: a tick of a wait, an executed operation, or the fault ILLEGAL_OP. -/
theorem step_next_cases {s t : State} (h : step s = .next t) :
    s.fault = false ∧
    ((s.wcnt ≠ 0 ∧ t = record .tick (setWcnt (s.wcnt - 1) s)) ∨
     (s.wcnt = 0 ∧ ∃ i, decodeWord (fetchWord s) = .op i ∧ exec i s = .next t) ∨
     (s.wcnt = 0 ∧ (∃ why, decodeWord (fetchWord s) = .illegal why) ∧ t = raiseIllegalOp (fetchWord s) s)) := by
  cases hf : s.fault with
  | true => rw [step_of_faulted hf] at h; cases h
  | false =>
    refine ⟨rfl, ?_⟩
    by_cases hw : s.wcnt = 0
    · rw [step_of_ready hf hw] at h
      obtain ⟨i, hd, he⟩ | ⟨why, hd, he⟩ := sequencerStep_cases s
      · exact .inr (.inl ⟨hw, i, hd, he ▸ h⟩)
      · rw [he] at h
        cases h
        exact .inr (.inr ⟨hw, ⟨why, hd⟩, rfl⟩)
    · rw [step_of_waiting hf hw, tickStep_busy hw] at h
      cases h
      exact .inl ⟨hw, rfl⟩

theorem run_succ_next {s t : State} (n : Nat) (h : step s = .next t) : run (n + 1) s = run n t := by
  simp only [run, h]

/-- A step draws exactly when it executes a drawing operation. -/
theorem stepDraws_ready {s : State} {i : Instr} (hp : phase s = .ready) (hd : decodeWord (fetchWord s) = .op i) :
    stepDraws s = Draws i := by
  simp only [stepDraws, hp, hd]

theorem stepDraws_not_ready {s : State} (hp : phase s ≠ .ready) : stepDraws s = false := by
  unfold stepDraws
  split
  · exact absurd ‹_› hp
  · rfl

theorem stepDraws_illegal {s : State} {why : IllegalReason} (hd : decodeWord (fetchWord s) = .illegal why) :
    stepDraws s = false := by
  cases hp : phase s <;> simp only [stepDraws, hp, hd]

theorem drawCount_succ_next {s t : State} (n : Nat) (h : step s = .next t) :
    drawCount (n + 1) s = (if stepDraws s then 1 else 0) + drawCount n t := by
  simp only [drawCount, h]

theorem drawn_add (m n : Nat) (s : Word) : drawn (m + n) s = drawn n (drawn m s) := by
  induction m generalizing s with
  | zero => simp [drawn]
  | succ m ih => rw [Nat.succ_add, drawn, ih, drawn]

theorem replay_append_wr (r q : IfReg) (v : Byte) (h : List Event) :
    replay r (h ++ [.wr q v]) = if q = r then some v else replay r h := by
  simp [replay]

theorem replay_append_tick (r : IfReg) (h : List Event) : replay r (h ++ [.tick]) = replay r h := by
  simp [replay]

theorem replay_append_fault (r : IfReg) (pc : Byte) (w : Word) (h : List Event) :
    replay r (h ++ [.fault pc w]) = replay r h := by
  simp [replay]

end Sys2Proof.Machine
end

