-- ==== Sys2Proof/Tests/Slice0.lean ====
section
/-! SUPPORT. The model's own tests. Expected values are the spec's: 95_test_vectors.md's vectors, by number, and
R72's formats; then a witness for each statement that has hypotheses. -/

namespace Sys2Proof.Tests

open Sys2Proof.Machine

/-- The state an outcome goes on in. -/
def after (o : Host.Outcome State Fault Refusal) : Option State :=
  match o with
  | .next s => some s
  | _ => none

/-- A READY state with a given LFSR, at ROM address 0. -/
def ready (lfsr : Word) : State := State.powerOn lfsr []

/-- A READY state about to fetch a given word. -/
def placed (w : Word) : State := setFetchWord w (ready 0x4000)

/-! ### Well-formedness: an ill-formed term for each check of R82 -/

theorem test_wf_duty_channel : (AsmOp.duty 2).wellFormed = false := by decide
theorem test_wf_waitms_range : (AsmOp.waitms 4096).wellFormed = false := by decide
theorem test_wf_ocrw_channel : (AsmOp.ocrw 2 50).wellFormed = false := by decide
theorem test_wf_ocrw_value : (AsmOp.ocrw 1 256).wellFormed = false := by decide
theorem test_wf_enset_channel : (AsmOp.enset 2 1).wellFormed = false := by decide
theorem test_wf_enset_value : (AsmOp.enset 0 2).wellFormed = false := by decide
theorem test_wf_dirset_mask : (AsmOp.dirset 4).wellFormed = false := by decide
theorem test_wf_jmp_target : (AsmOp.jmp (.addr 256)).wellFormed = false := by decide
theorem test_wf_on_channel : (AsmOp.on 2).wellFormed = false := by decide
theorem test_wf_off_channel : (AsmOp.off 2).wellFormed = false := by decide
theorem test_wf_floor_channel : (AsmOp.floor 2).wellFormed = false := by decide

/-! ### Decoding: each constructor's word, bit by bit from R72 -/

theorem test_decode_draw : decodeWord 0b0001_0000_0000_0000 = .op .draw := by decide
theorem test_decode_duty : decodeWord 0b0010_0001_0000_0000 = .op (.duty .ch1) := by decide
theorem test_decode_rdly : decodeWord 0b0011_0000_0000_0000 = .op .rdly := by decide
theorem test_decode_waitd : decodeWord 0b0100_0000_0000_0000 = .op .waitd := by decide
theorem test_decode_waitms : decodeWord 0b0101_0010_1110_1110 = .op (.waitms 750) := by decide
theorem test_decode_ocrw : decodeWord 0b0110_0001_1111_1111 = .op (.ocrw .ch1 255) := by decide
theorem test_decode_enset : decodeWord 0b0111_0001_0000_0001 = .op (.enset .ch1 true) := by decide
theorem test_decode_dirset : decodeWord 0b1000_0000_0000_0010 = .op (.dirset 0b10) := by decide
theorem test_decode_pwmcfg : decodeWord 0b1001_0000_0000_0000 = .op .pwmcfg := by decide
theorem test_decode_jmp : decodeWord 0b1010_0000_0000_1011 = .op (.jmp 0x0B) := by decide

/-- V126, V129, V131, V138, V141, V145, V147, V150: a 1 in a must-be-zero bit. -/
theorem test_decode_reserved_bits :
    [0x2200, 0x2001, 0x3100, 0x4800, 0x6200, 0x7002, 0x8004, 0x9001, 0xA100].map decodeWord =
      [0x2, 0x2, 0x3, 0x4, 0x6, 0x7, 0x8, 0x9, 0xA].map (fun op => .illegal (.reservedBitSet op)) := by decide

/-- V120, V121, V151 to V153: an unassigned opcode. -/
theorem test_decode_unassigned :
    [0x0000, 0x0FFF, 0xB000, 0xC123, 0xFFFF].map decodeWord =
      [0x0, 0x0, 0xB, 0xC, 0xF].map (fun op => .illegal (.unassignedOpcode op)) := by decide

/-- A ROM image's bytes, low byte first (R55); one byte alone is no word. -/
theorem test_decode_bytes : decode [0xEE, 0x52] = .op (.waitms 750) ∧ decode [0xEE] = .illegal .truncated := by decide

theorem test_decode_table_word : decodeTableWord 16 0x6132 = some (.ocrw .ch1 50) ∧ decodeTableWord 16 0x7003 = none := by decide

/-! ### The pure functions -/

/-- V1, V3 to V12. -/
theorem test_lfsr_next :
    [0x0000, 0x8000, 0x4000, 0xFFFF, 0x7FFF, 0x1000, 0x0008, 0xD008, 0xC000, 0x1008, 0xACE1].map lfsrNext =
      [0x0002, 0x0001, 0x8001, 0xFFFE, 0xFFFF, 0x2001, 0x0011, 0xA010, 0x8000, 0x2010, 0x59C3] := by decide

/-- V21 to V38. -/
theorem test_duty_of :
    [0x0031, 0x0032, 0x0033, 0x00FE, 0x00FF, 0x0100, 0x0131, 0x8001, 0xFFFE, 0xFFFF, 0xACE1, 0x59C3].map dutyOf =
      [50, 50, 51, 254, 50, 50, 50, 129, 254, 50, 142, 50] := by decide

/-- V40 to V50. -/
theorem test_delay_of :
    [0x0000, 0x0031, 0x0032, 0x0033, 0x00FE, 0x8000, 0xFFFF, 0xACE1].map delayOf = [0, 49, 0, 1, 4, 18, 35, 7] := by
  decide

/-- V173, V174. -/
theorem test_cycle : cycle 0xFFFF = ⟨254, 252, 28, 0xFFF8⟩ ∧ cycle 0xACE1 = ⟨50, 58, 30, 0x670C⟩ := by decide

/-! ### The operations, one step each -/

/-- V3. -/
theorem test_draw : (after (exec .draw (ready 0x8000))).map (fun t => (t.lfsr, t.pc, t.history)) =
    some (0x0001, 0x01, []) := by decide

/-- V64; the other channel stays unwritten. -/
theorem test_duty : (after (exec (.duty .ch1) (ready 0xFFFE))).map (fun t => (t.lfsr, t.ocr, t.history)) =
    some (0xFFFC, ⟨.unwritten, .written 252⟩, [.wr .ocr1 252]) := by decide

/-- V67: the residue 29 is floored. -/
theorem test_duty_floor : (after (exec (.duty .ch0) (ready 0xACE1))).map (fun t => (t.lfsr, t.ocr.ch0)) =
    some (0x59C3, .written 50) := by decide

/-- V74, V77. -/
theorem test_rdly : (after (exec .rdly (ready 0x1000))).map (fun t => (t.lfsr, t.dly, t.history)) =
    some (0x2001, 43, []) := by decide
theorem test_rdly_zero : (after (exec .rdly (ready 0x8019))).map (fun t => (t.lfsr, t.dly)) = some (0x0032, 0) := by decide

/-- V82: DLY is kept. -/
theorem test_waitd : (after (exec .waitd (setDly 49 (ready 1)))).map (fun t => (t.wcnt, t.dly, t.pc)) =
    some (49, 49, 1) := by decide

/-- V86 and the NOP, V83. -/
theorem test_waitms : (after (exec (.waitms 4095) (ready 1))).map (fun t => (t.wcnt, t.pc)) = some (4095, 1) := by decide
theorem test_waitms_nop : (after (exec (.waitms 0) (ready 1))).map phase = some .ready := by decide

/-- V92: a value below the floor is written as given. -/
theorem test_ocrw : (after (exec (.ocrw .ch0 0) (setOcr .ch0 200 (ready 1)))).map (fun t => (t.ocr, t.lfsr, t.history)) =
    some (⟨.written 0, .unwritten⟩, 1, [.wr .ocr0 0]) := by decide

/-- V94, V95: both channels' bits after the update. -/
theorem test_enset : (after (exec (.enset .ch1 true) (setEn .ch0 true (ready 1)))).map (fun t => (t.en, t.history)) =
    some (⟨true, true⟩, [.wr .outen 0x03]) := by decide
theorem test_enset_clear :
    (after (exec (.enset .ch0 false) (setEn .ch1 true (setEn .ch0 true (ready 1))))).map (fun t => (t.en, t.history)) =
      some (⟨false, true⟩, [.wr .outen 0x02]) := by decide

/-- V98: bit 0 is channel 0, and the other bit is cleared. -/
theorem test_dirset : (after (exec (.dirset 1) (setDir ⟨true, true⟩ (ready 1)))).map (fun t => (t.dir, t.history)) =
    some (⟨true, false⟩, [.wr .dir 0x01]) := by decide

/-- V101: idempotent, and still emitted. -/
theorem test_pwmcfg : (after (exec .pwmcfg (setPwmOn (ready 1)))).map (fun t => (t.pwmOn, t.history)) =
    some (true, [.wr .pwmctl 0x01]) := by decide

/-- V112. -/
theorem test_jmp : (after (exec (.jmp 0xFF) (ready 1))).map (fun t => (t.pc, t.history)) = some (0xFF, []) := by decide

/-- R108: DRAW at PC 0xFF sets PC to 0x00. -/
theorem test_pc_wraps : (after (exec .draw (setPc 0xFF (ready 1)))).map (·.pc) = some 0x00 := by decide

/-! ### The step, the tick and the fault -/

/-- V161. -/
theorem test_fault : (after (step (setFetchWord 0xB000 (setPc 0x06 (ready 0x1234))))).map
    (fun t => ((t.fault, t.fcause, t.fword), t.pc, t.lfsr, t.history)) =
      some ((true, 1, 0xB000), 0x06, 0x1234, [.fault 0x06 0xB000]) := by decide

/-- V162: no step is enabled. -/
theorem test_faulted_stuck : after (step (raiseIllegalOp 0 (ready 1))) = none := by decide

/-- R142: the last tick of a wait, recorded. -/
theorem test_tick : (after (step (setWcnt 1 (ready 1)))).map (fun t => (t.wcnt, t.history, t.pc, phase t)) =
    some (0, [.tick], 0, .ready) := by decide

/-- The first step after reset runs the reference program's WAITMS 100 (R175), whatever SEED is. -/
theorem test_reset_first_step : (after (step State.reset)).map (fun t => (t.wcnt, t.pc)) = some (100, 1) := by decide

/-- A word placed at reset is what the next step runs. -/
theorem test_with_fetch_word : (after (step (State.reset.withFetchWord 16 0x6132))).map (fun t => (t.ocr, t.history)) =
    some (⟨.unwritten, .written 50⟩, [.wr .ocr1 50]) := by decide

/-! ### The ROM and the assembler -/

theorem test_rom_reference : romRead [] 0x03 = 0x52EE ∧ romRead [] 0x0F = 0xA00B ∧ romRead [] 0x10 = 0x0000 := by decide

/-- Writing an unlisted byte's own value lists nothing. -/
theorem test_write_canonical : writeByte [] 0 0x64 = [] ∧ writeByte [(1, 0)] 1 0x50 = [] := by decide

/-- Program P4's opening lines as source text (95_test_vectors.md section 3), with a label and `.org` (R82). -/
theorem test_assemble : assembleText
    [['O', 'C', 'R', 'W', ' ', '0', ',', ' ', '0', 'x', 'F', 'F', ' ', ';', 'P', '4'],
     ['J', 'M', 'P', ' ', 'g', 'o'], ['.', 'o', 'r', 'g', ' ', '5'], ['g', 'o', ':', ' ', 'O', 'N', ' ', '1']] =
      some [(0, 0x60FF), (1, 0xA005), (5, 0x7101)] := by decide

/-- Out of range: an assembly error, never truncated (R82). -/
theorem test_assemble_range : assembleText [['W', 'A', 'I', 'T', 'M', 'S', ' ', '4', '0', '9', '6']] = none := by decide

/-! ### Witnesses: concrete states and operands that meet a statement's hypotheses -/

theorem witness_EncodeOfDecode : decodeWord 0x5FFF = .op (.waitms 4095) := by decide

theorem witness_OpcodeMapMatches : decodeWord 0x61FF = .op (.ocrw .ch1 255) ∧ matchesRow 0x61FF (.ocrw .ch0 0) = true ∧
    matchesRow 0x61FF (.ocrw .ch1 7) = true ∧ (0x0FFF : Word).toNat / 4096 = 0 ∧ 11 ≤ (0xB000 : Word).toNat / 4096 := by
  decide

theorem witness_MustBeZeroBitIsIllegal : fieldOp 0x7002 = fieldOp (encode (.enset .ch0 false)) ∧
    (opcodeMatchMask (.enset .ch0 false)).2.getLsbD 1 = true ∧ (0x7002 : Word).getLsbD 1 = true ∧
    (placed 0x7002).fault = false ∧ (placed 0x7002).wcnt = 0 ∧ fetchWord (placed 0x7002) = 0x7002 := by decide

theorem witness_MustBeZeroBitIsIllegal_top : fieldOp 0xA800 = fieldOp (encode (.jmp 0)) ∧
    (opcodeMatchMask (.jmp 0)).2.getLsbD 11 = true ∧ (0xA800 : Word).getLsbD 11 = true := by decide

theorem witness_UnassignedOpcodeIsIllegal : (0x0FFF : Word).toNat / 4096 = 0 ∧ 11 ≤ (0xB000 : Word).toNat / 4096 ∧
    (placed 0xFFFF).fault = false ∧ (placed 0xFFFF).wcnt = 0 ∧
    decodeWord (fetchWord (placed 0xFFFF)) = .illegal (.unassignedOpcode 0xF) ∧
    (ready 1).fault = false ∧ (ready 1).wcnt = 0 ∧ romRead (ready 1).rom 0x10 = 0x0000 := by decide

theorem witness_PseudoInstructions : (placed 0xA000).fault = false ∧ (placed 0xA000).wcnt = 0 ∧
    fetchWord (placed 0xA000) = encode (.jmp (placed 0xA000).pc) := by decide

/-- Labels in use at both ends of the ROM, and one that stands for no address. -/
theorem witness_AssemblerWords : labelAddr [(['a'], 0), (['b'], 255)] ['b'] = some 255 ∧
    labelAddr [(['a'], 0), (['b'], 255)] ['c'] = none ∧ ([(['a'], 0), (['b'], 255)].map Prod.fst).Nodup ∧
    ((['a'], 0) : Text × Nat) ∈ [(['a'], 0), (['b'], 255)] := by decide

theorem witness_LfsrPredecessors : (0x0001 : Word) ≠ 0 ∧ (0x0001 : Word) ≠ 0x0002 := by decide

theorem witness_LfsrMaximalPeriod : (0x8000 : Word) ≠ 0 ∧ (0xFFFF : Word) ≠ 0 := by decide

theorem witness_DrawsAreNonzeroAndDistinct : ∃ t u v, Draws .draw = true ∧ Draws (.duty .ch1) = true ∧
    exec .draw (ready 0) = .next t ∧ exec (.duty .ch1) t = .next u ∧ step (placed 0x3000) = .next v ∧
    (placed 0x3000).lfsr ≠ 0 := ⟨_, _, _, rfl, rfl, rfl, rfl, rfl, by decide⟩

/-- Two runs of one step with equal LFSRs, one RDLY and one DRAW: one draw each. -/
theorem witness_LfsrDependsOnDrawCountOnly : ∃ t u v, exec .waitd (ready 1) = .next t ∧
    run 1 (placed 0x3000) = .next u ∧ run 1 (placed 0x1000) = .next v ∧ (placed 0x3000).lfsr = (placed 0x1000).lfsr ∧
    drawCount 1 (placed 0x3000) = 1 ∧ drawCount 1 (placed 0x1000) = 1 :=
  ⟨_, _, _, rfl, rfl, rfl, rfl, by decide, by decide⟩

/-- A waiting step and a step of an ILLEGAL word draw nothing. -/
theorem test_draw_count_zero : drawCount 1 (setWcnt 1 (placed 0x1000)) = 0 ∧ drawCount 1 (placed 0xB000) = 0 := by decide

theorem witness_ZeroSeedRunsAsOne : ∃ t, run 1 { placed 0x2000 with lfsr := 0x0000 } = .next t := ⟨_, rfl⟩

theorem witness_DrawDistribution : 51 ≤ (51 : Byte).toNat ∧ (254 : Byte).toNat ≤ 254 ∧ 1 ≤ (1 : BitVec 6).toNat ∧
    (35 : BitVec 6).toNat ≤ 35 ∧ (0 : BitVec 6).toNat = 0 ∧ 36 ≤ (36 : BitVec 6).toNat ∧ (49 : BitVec 6).toNat ≤ 49 := by
  decide

theorem witness_DrawResult : (0x1001 : Word).toNat / 4096 = 1 ∧ (0x1001 : Word) ≠ 0x1000 := by decide

theorem witness_WaitdResult : ∃ t, (setDly 49 (ready 1)).fault = false ∧ exec .waitd (setDly 49 (ready 1)) = .next t ∧
    48 < (setDly 49 (ready 1)).dly.toNat := ⟨_, rfl, rfl, by decide⟩

theorem witness_WaitmsResult : ∃ t, (ready 1).fault = false ∧ exec (.waitms 4095) (ready 1) = .next t ∧
    4094 < (4095 : BitVec 12).toNat := ⟨_, rfl, rfl, by decide⟩

theorem witness_PwmcfgResult : (setPwmOn (ready 1)).pwmOn = true := rfl

theorem witness_JmpResult : (ready 1).fault = false ∧ (ready 1).wcnt = 0 ∧
    decodeWord (romRead (ready 1).rom 0xFF) = .illegal (.unassignedOpcode 0) := by decide

theorem witness_OnlyIllegalWordsFault : phase (placed 0xB000) = .ready ∧ phase (placed 0x1000) = .ready := by decide

theorem witness_DrawingFrame : ∃ t, Draws (.duty .ch0) = true ∧ exec (.duty .ch0) (ready 1) = .next t := ⟨_, rfl, rfl⟩

theorem witness_WaitAndJumpFrame : ∃ t u v, exec .waitd (ready 1) = .next t ∧ exec (.waitms 7) (ready 1) = .next u ∧
    exec (.jmp 7) (ready 1) = .next v := ⟨_, _, _, rfl, rfl, rfl⟩

theorem witness_InterfaceWriteFrame : ∃ t u v w, exec (.ocrw .ch0 7) (ready 1) = .next t ∧
    exec (.enset .ch1 true) (ready 1) = .next u ∧ exec (.dirset 3) (ready 1) = .next v ∧
    exec .pwmcfg (ready 1) = .next w := ⟨_, _, _, _, rfl, rfl, rfl, rfl⟩

/-- Two states that agree in PC, LFSR, DLY and EN[0] and differ in EN[1], which ENSET 1 does not read. -/
theorem witness_OperationsReadOnlyWhatIsListed : ∃ t t', exec (.enset .ch1 true) (ready 1) = .next t ∧
    exec (.enset .ch1 true) (setEn .ch1 true (ready 1)) = .next t' ∧ (ready 1).pc = (setEn .ch1 true (ready 1)).pc ∧
    (ready 1).lfsr = (setEn .ch1 true (ready 1)).lfsr ∧ (ready 1).dly = (setEn .ch1 true (ready 1)).dly ∧
    ∀ d, d ≠ Channel.ch1 → (ready 1).en.get d = (setEn .ch1 true (ready 1)).en.get d :=
  ⟨_, _, rfl, rfl, rfl, rfl, rfl, fun d h => by cases d <;> first | rfl | exact absurd rfl h⟩

theorem witness_ChannelsAreIndependent : ∃ t u v, Channel.ch1 ≠ .ch0 ∧ exec (.duty .ch0) (ready 1) = .next t ∧
    exec (.ocrw .ch0 1) (ready 1) = .next u ∧ exec (.enset .ch0 true) (ready 1) = .next v :=
  ⟨_, _, _, by decide, rfl, rfl, rfl⟩

theorem witness_StepRunsDecodedOperation : (placed 0x5FFF).fault = false ∧ (placed 0x5FFF).wcnt = 0 ∧
    decodeWord (romRead (placed 0x5FFF).rom (placed 0x5FFF).pc) = .op (.waitms 4095) ∧
    ¬((setWcnt 1 (ready 1)).fault = false ∧ (setWcnt 1 (ready 1)).wcnt = 0) := by decide

theorem witness_FaultEntry : (placed 0x0FFF).fault = false ∧ (placed 0x0FFF).wcnt = 0 ∧
    decodeWord (romRead (placed 0x0FFF).rom (placed 0x0FFF).pc) = .illegal (.unassignedOpcode 0) := by decide

theorem witness_FaultedIsStuck : (raiseIllegalOp 0 (ready 1)).fault = true ∧ (raiseIllegalOp 0 (ready 1)).fcause = 1 ∧
    (raiseIllegalOp 0 (ready 1)).wcnt = 0 ∧
    { ready 1 with fault := true, fcause := 2 }.fault = true ∧ { ready 1 with fault := true, fcause := 2 }.fcause ≠ 1 := by
  decide

theorem witness_TickResult : (setWcnt 1 (ready 1)).wcnt ≠ 0 ∧ (setWcnt 4095 (ready 1)).wcnt ≠ 0 ∧ (ready 1).wcnt = 0 := by
  decide

theorem witness_PhaseDecidesWhoSteps : phase (setWcnt 1 (ready 1)) = .waiting ∧ phase (ready 1) = .ready ∧
    phase (raiseIllegalOp 0 (ready 1)) = .faulted := by decide

theorem witness_EveryScheduleIsARun : (raiseIllegalOp 0 (ready 1)).fault = true ∧ (raiseIllegalOp 0 (ready 1)).wcnt = 0 := by
  decide

theorem witness_SchedulesAgreeOnHistory : ∃ t t', ((ready 1).fault = true → (ready 1).wcnt = 0) ∧
    runSchedule [.sequencer, .tickSource] (ready 1) = .next t ∧ runSchedule [.tickSource, .sequencer] (ready 1) = .next t' :=
  ⟨_, _, fun _ => rfl, rfl, rfl⟩

theorem witness_ProgramCounterRule : ∃ t u, exec .draw (setPc 0xFF (ready 1)) = .next t ∧ (∀ a, Instr.draw ≠ .jmp a) ∧
    exec (.jmp 0xFF) (ready 1) = .next u ∧ phase (placed 0xB000) = .ready ∧ phase (placed 0x5FFF) = .ready ∧
    decodeWord (romRead (placed 0xB000).rom (placed 0xB000).pc) = .illegal (.unassignedOpcode 0xB) ∧
    decodeWord (romRead (placed 0x5FFF).rom (placed 0x5FFF).pc) = .op (.waitms 4095) :=
  ⟨_, _, rfl, fun _ => nofun, rfl, by decide, by decide, by decide, by decide⟩

theorem witness_InterfaceRegisterMap : ∃ t u v w x, exec (.ocrw .ch0 9) (ready 1) = .next t ∧ t.history = [] ++ [.wr .ocr0 9] ∧
    exec (.ocrw .ch1 9) (ready 1) = .next u ∧ u.history = [] ++ [.wr .ocr1 9] ∧
    exec (.enset .ch0 true) (ready 1) = .next v ∧ v.history = [] ++ [.wr .outen 1] ∧
    exec (.dirset 2) (ready 1) = .next w ∧ w.history = [] ++ [.wr .dir 2] ∧
    exec .pwmcfg (ready 1) = .next x ∧ x.history = [] ++ [.wr .pwmctl 1] ∧
    ifRegValue (ready 1) .outen = some 0 ∧ ifRegValue (ready 1) .dir = some 0 ∧ ifRegValue (ready 1) .pwmctl = some 0 :=
  ⟨_, _, _, _, _, rfl, rfl, rfl, rfl, rfl, rfl, rfl, rfl, rfl, rfl, rfl, rfl, rfl⟩

theorem witness_WritesCarryWholeRegister : ∃ t, exec (.dirset 3) (ready 1) = .next t := ⟨_, rfl⟩

theorem witness_HistoryOnlyGrows : ∃ t, step (placed 0x6032) = .next t ∧ run 1 (placed 0x6032) = .next t := ⟨_, rfl, rfl⟩

theorem witness_PwmStaysOn : ∃ t, run 1 (setPwmOn (placed 0x6032)) = .next t ∧ (setPwmOn (placed 0x6032)).pwmOn = true :=
  ⟨_, rfl, rfl⟩

theorem witness_LampOutputReading : ∃ t, (ready 1).dir.get .ch0 = false ∧
    (setEn .ch0 true (setDir ⟨true, true⟩ (ready 1))).dir.get .ch0 = true ∧
    (setEn .ch0 true (setDir ⟨true, true⟩ (ready 1))).pwmOn = false ∧
    (setEn .ch0 true (setDir ⟨true, true⟩ (ready 1))).en.get .ch0 = true ∧
    (setEn .ch0 true (setDir ⟨true, true⟩ (ready 1))).en.get .ch1 = false ∧
    (setPwmOn (setOcr .ch0 255 (ready 1))).ocr.get .ch0 = .written 255 ∧
    (setPwmOn (setOcr .ch0 255 (ready 1))).pwmOn = true ∧
    (setDir ⟨true, true⟩ (ready 1)).ocr.get .ch1 = .unwritten ∧ exec .pwmcfg (setDir ⟨true, true⟩ (ready 1)) = .next t :=
  ⟨_, rfl, rfl, rfl, rfl, rfl, rfl, rfl, rfl, rfl⟩

theorem witness_RomNeverChanges : ∃ t u v, exec .draw (ready 1) = .next t ∧ run 1 (placed 0x6032) = .next u ∧
    runSchedule [.tickSource, .sequencer] (placed 0x6032) = .next v := ⟨_, _, _, rfl, rfl, rfl⟩

theorem witness_RomHoldsItsProgram : ∀ q ∈ [((0xFF : Nat), (0x2100 : Word))], q.1 ≠ (0x00 : Byte).toNat := by decide

theorem witness_CanonicalRomIsUnique : Memory.wf [(0, 0x00), (511, 0x01)] = true := by decide

theorem witness_PlacedWordRunsNext : Memory.wf (ready 1).rom = true ∧ decodeWord 0x5FFF = .op (.waitms 4095) ∧
    decodeWord 0xB000 = .illegal (.unassignedOpcode 0xB) ∧ (0xFF : Byte) ≠ (ready 1).pc := by decide

theorem witness_ResetIsSoundAndReady : Memory.wf (loadWord [] 0xFF 0x2100) = true := by decide

theorem witness_StepKeepsSound : ∃ t, Sound (ready 1) ∧ step (ready 1) = .next t :=
  ⟨_, { rom := rfl
        delay := by decide
        record :=
          { clear := fun _ => ⟨rfl, rfl, fun _ h => nomatch h⟩
            cause := nofun
            idle := nofun
            word := nofun
            logged := nofun }
        replays := fun r => by cases r <;> decide }, rfl⟩

theorem witness_CycleIsPureFunction : (ready 0x0044).fault = false := rfl

theorem witness_WaitEndsAfterItsTicks : (setWcnt 4095 (ready 1)).fault = false ∧ 4095 ≤ (setWcnt 4095 (ready 1)).wcnt.toNat := by
  decide

end Sys2Proof.Tests
end

/-! ### Proofs of the family of 10_state.md -/

namespace Sys2Proof.Machine

/-! #### The program counter (R30) -/

/-- R30's rule for PC, for every operation but JMP. -/
theorem exec_pc_of_ne_jmp {i : Instr} {s t : State} (h : exec i s = .next t) (hi : ∀ a, i ≠ .jmp a) :
    t.pc = s.pc + 1 := by
  cases i with
  | jmp a => exact absurd rfl (hi a)
  | draw | duty | rdly | waitd | waitms | ocrw | enset | dirset | pwmcfg => cases h; rfl

/-- JMP's whole effect on PC is its target (R160). -/
theorem exec_jmp_pc {a : Byte} {s t : State} (h : exec (.jmp a) s = .next t) : t.pc = a := by
  rw [exec_jmp] at h
  cases h
  rfl

/-- R141: the READY step runs the operation it fetches. -/
theorem step_of_ready_op {s : State} {i : Instr} (hp : phase s = .ready)
    (hd : decodeWord (fetchWord s) = .op i) : step s = exec i s := by
  obtain ⟨hf, hw⟩ := phase_eq_ready.1 hp
  rw [step_of_ready hf hw, sequencerStep_op hd]

/-- R141: the READY step takes the fault on an ILLEGAL word. -/
theorem step_of_ready_illegal {s : State} {why : IllegalReason} (hp : phase s = .ready)
    (hd : decodeWord (fetchWord s) = .illegal why) : step s = .next (raiseIllegalOp (fetchWord s) s) := by
  obtain ⟨hf, hw⟩ := phase_eq_ready.1 hp
  rw [step_of_ready hf hw, sequencerStep_illegal hd]

/-- Settles O45: the four clauses are the rules above; 8-bit addition is the sum modulo 256. -/
theorem programCounterRule : Obligations.ProgramCounterRule := by
  refine ⟨fun i s t h hi => ?_, fun a s t h => exec_jmp_pc h, fun s why hp hd => ?_,
    fun s i hp hd => step_of_ready_op hp hd⟩
  · rw [exec_pc_of_ne_jmp h hi]
    exact BitVec.toNat_add s.pc 1
  · exact ⟨_, step_of_ready_illegal hp hd, raiseIllegalOp_pc s _⟩

/-! #### The channels (R37) -/

/-- Two states hold the same in every register of channel c. -/
structure SameChannel (c : Channel) (s t : State) : Prop where
  ocr : s.ocr.get c = t.ocr.get c
  en : s.en.get c = t.en.get c
  dir : s.dir.get c = t.dir.get c

/-- The operations that name one channel: DUTY, OCRW and ENSET. -/
def NamesChannel (c : Channel) (i : Instr) : Prop :=
  i = .duty c ∨ (∃ v, i = .ocrw c v) ∨ (∃ v, i = .enset c v)

/-- An operation that names channel c leaves the registers of the other channel. -/
theorem exec_keeps_other_channel {c d : Channel} {i : Instr} {s t : State} (hi : NamesChannel c i) (hd : d ≠ c)
    (h : exec i s = .next t) : SameChannel d t s := by
  obtain rfl | ⟨v, rfl⟩ | ⟨v, rfl⟩ := hi
  · rw [exec_duty] at h
    cases h
    exact ⟨PerChannel.get_set_other _ _ hd, rfl, rfl⟩
  · rw [exec_ocrw] at h
    cases h
    exact ⟨PerChannel.get_set_other _ _ hd, rfl, rfl⟩
  · rw [exec_enset] at h
    cases h
    exact ⟨rfl, PerChannel.get_set_other _ _ hd, rfl⟩

/-- From two states that agree in the LFSR and channel c's registers, an operation that names channel c goes to
two states that agree in them: it reads nothing of the other channel for what it writes there. -/
theorem exec_congr_of_sameChannel {c : Channel} {i : Instr} {s s' t : State} (hi : NamesChannel c i)
    (hc : SameChannel c s' s) (hl : s'.lfsr = s.lfsr) (h : exec i s = .next t) :
    ∃ t', exec i s' = .next t' ∧ SameChannel c t' t ∧ t'.lfsr = t.lfsr := by
  obtain ⟨hocr, hen, hdir⟩ := hc
  obtain rfl | ⟨v, rfl⟩ | ⟨v, rfl⟩ := hi
  · rw [exec_duty] at h
    cases h
    exact ⟨_, exec_duty s' c, ⟨by simp [hl], hen, hdir⟩, congrArg lfsrNext hl⟩
  · rw [exec_ocrw] at h
    cases h
    exact ⟨_, exec_ocrw s' c v, ⟨by simp, hen, hdir⟩, hl⟩
  · rw [exec_enset] at h
    cases h
    exact ⟨_, exec_enset s' c v, ⟨hocr, by simp, hdir⟩, hl⟩

/-- Settles O37: the other channel is kept, and overwriting it leaves the LFSR and channel c as they were, so
the operation's results for channel c and the LFSR are the same. -/
theorem channelsAreIndependent : Obligations.ChannelsAreIndependent := by
  intro c d i s t hd hi h
  obtain ⟨hocr, hen, hdir⟩ := exec_keeps_other_channel hi hd h
  refine ⟨hocr, hen, hdir, fun o e r => ?_⟩
  have hsame : SameChannel c
      { s with ocr := s.ocr.set d o, en := s.en.set d e, dir := s.dir.set d r } s :=
    ⟨PerChannel.get_set_other _ _ hd.symm, PerChannel.get_set_other _ _ hd.symm,
      PerChannel.get_set_other _ _ hd.symm⟩
  obtain ⟨t', hexec, ⟨hocr', hen', hdir'⟩, hlfsr⟩ := exec_congr_of_sameChannel hi hsame rfl h
  exact ⟨t', hexec, hocr', hen', hdir', hlfsr⟩

/-! #### Reset (R35) -/

/-- Settles O56: `State.powerOn` writes R35's table field by field, and reset is it at the open SEED. -/
theorem resetValues : Obligations.ResetValues :=
  ⟨fun _ _ => ⟨rfl, rfl, rfl, rfl, rfl, rfl, rfl, rfl, rfl, rfl, rfl, rfl, rfl, rfl⟩, Config.seed, [], rfl⟩

end Sys2Proof.Machine

/-! ### Proofs of the family of 20_memory.md -/

namespace Sys2Proof.Machine

/-! #### The interface registers (R53, R54) -/

section IfRegValues
variable (s : State) (r : IfReg)

@[simp] theorem ifRegValue_setPc (t : Byte) : ifRegValue (setPc t s) r = ifRegValue s r := by cases r <;> rfl

@[simp] theorem ifRegValue_advancePc : ifRegValue (advancePc s) r = ifRegValue s r := ifRegValue_setPc s r _

@[simp] theorem ifRegValue_draw : ifRegValue (draw s) r = ifRegValue s r := by cases r <;> rfl

@[simp] theorem ifRegValue_setDly (d : BitVec 6) : ifRegValue (setDly d s) r = ifRegValue s r := by cases r <;> rfl

@[simp] theorem ifRegValue_setWcnt (n : BitVec 12) : ifRegValue (setWcnt n s) r = ifRegValue s r := by
  cases r <;> rfl

@[simp] theorem ifRegValue_emit (q : IfReg) (v : Byte) : ifRegValue (emit q v s) r = ifRegValue s r := by
  cases r <;> rfl

end IfRegValues

/-- From s to u the interface register r took the value v: every other register and the history are as in s. -/
structure UpdatesRegister (r : IfReg) (v : Byte) (s u : State) : Prop where
  history : u.history = s.history
  value : ifRegValue u r = some v
  others : ∀ q, q ≠ r → ifRegValue u q = ifRegValue s q

/-- Channel c's threshold register takes the value written to `OCR[c]` (R146, R152). -/
theorem setOcr_updatesRegister (c : Channel) (v : Byte) (s : State) :
    UpdatesRegister (ocrReg c) v s (setOcr c v s) where
  history := rfl
  value := by cases c <;> rfl
  others := by
    intro q hq
    cases c with
    | ch0 =>
      cases q with
      | ocr0 => exact absurd rfl hq
      | ocr1 | outen | dir | pwmctl => rfl
    | ch1 =>
      cases q with
      | ocr1 => exact absurd rfl hq
      | ocr0 | outen | dir | pwmctl => rfl

/-- OUTEN takes both channels' enables after the update of one of them (R154). -/
theorem setEn_updatesRegister (c : Channel) (v : Bool) (s : State) :
    UpdatesRegister .outen (pairByte (s.en.set c v)) s (setEn c v s) where
  history := rfl
  value := rfl
  others := by
    intro q hq
    cases q with
    | outen => exact absurd rfl hq
    | ocr0 | ocr1 | dir | pwmctl => rfl

/-- A direction mask as the DIR register's value: its two bits, zero-extended (R53, R156). -/
theorem pairByte_maskChannels (m : BitVec 2) : pairByte (maskChannels m) = m.setWidth 8 := by
  revert m
  decide

/-- DIR takes both bits of the mask (R156). -/
theorem setDir_updatesRegister (m : BitVec 2) (s : State) :
    UpdatesRegister .dir (m.setWidth 8) s (setDir (maskChannels m) s) where
  history := rfl
  value := congrArg some (pairByte_maskChannels m)
  others := by
    intro q hq
    cases q with
    | dir => exact absurd rfl hq
    | ocr0 | ocr1 | outen | pwmctl => rfl

/-- PWMCTL takes 1 (R158). -/
theorem setPwmOn_updatesRegister (s : State) : UpdatesRegister .pwmctl 0x01 s (setPwmOn s) where
  history := rfl
  value := rfl
  others := by
    intro q hq
    cases q with
    | pwmctl => exact absurd rfl hq
    | ocr0 | ocr1 | outen | dir => rfl

/-- A draw before the update changes nothing of it. -/
theorem UpdatesRegister.of_draw {r : IfReg} {v : Byte} {s u : State} (h : UpdatesRegister r v (draw s) u) :
    UpdatesRegister r v s u where
  history := h.history
  value := h.value
  others q hq := (h.others q hq).trans (ifRegValue_draw s q)

/-- From s to t no event was recorded and no interface register changed. -/
def IsSilent (s t : State) : Prop := t.history = s.history ∧ ∀ r, ifRegValue t r = ifRegValue s r

/-- Every operation is silent, or it updates one interface register and emits just that register's new value. -/
theorem exec_silent_or_emits {i : Instr} {s t : State} (h : exec i s = .next t) :
    IsSilent s t ∨ ∃ r v u, UpdatesRegister r v s u ∧ t = advancePc (emit r v u) := by
  cases i with
  | draw | rdly | waitd | waitms n | jmp a =>
    left
    cases h
    exact ⟨rfl, fun r => by simp⟩
  | duty c =>
    cases h
    exact .inr ⟨_, _, _, (setOcr_updatesRegister c _ (draw s)).of_draw, rfl⟩
  | ocrw c n =>
    cases h
    exact .inr ⟨_, _, _, setOcr_updatesRegister c n s, rfl⟩
  | enset c v =>
    cases h
    exact .inr ⟨_, _, _, setEn_updatesRegister c v s, rfl⟩
  | dirset m =>
    cases h
    exact .inr ⟨_, _, _, setDir_updatesRegister m s, rfl⟩
  | pwmcfg =>
    cases h
    exact .inr ⟨_, _, _, setPwmOn_updatesRegister s, rfl⟩

/-- Settles O47: emitting appends the event, and neither it nor the PC's advance touches a register, so the
registers are those the update left. -/
theorem writesCarryWholeRegister : Obligations.WritesCarryWholeRegister := by
  intro i s t h
  obtain hsilent | ⟨r, v, u, ⟨hhist, hvalue, hothers⟩, rfl⟩ := exec_silent_or_emits h
  · exact .inl hsilent
  · refine .inr ⟨r, v, ?_, ?_, fun q hq => ?_⟩
    · simp [hhist]
    · simpa using hvalue
    · simpa using hothers q hq

/-! #### What every step keeps, every run and every schedule keeps -/

/-- A run of n + 1 steps that ends is a step and a run of n steps from there. -/
theorem run_succ_eq_next {n : Nat} {s t : State} (h : run (n + 1) s = .next t) :
    ∃ u, step s = .next u ∧ run n u = .next t := by
  cases hs : step s with
  | next u => exact ⟨u, rfl, run_succ_next n hs ▸ h⟩
  | fault r | refused r => simp [run, hs] at h

/-- A schedule that ends is its first agent's turn and the rest of it from there. -/
theorem runSchedule_cons_eq_next {a : Agent} {turns : List Agent} {s t : State}
    (h : runSchedule (a :: turns) s = .next t) :
    ∃ u, agentTurn a s = .next u ∧ runSchedule turns u = .next t := by
  cases ha : agentTurn a s with
  | next u => exact ⟨u, rfl, by simpa only [runSchedule, ha] using h⟩
  | fault r | refused r => simp [runSchedule, ha] at h

/-- What every step keeps, every run keeps. -/
theorem run_keeps {P : State → Prop} (hstep : ∀ {s t}, step s = .next t → P s → P t) {n : Nat} {s t : State}
    (h : run n s = .next t) (hs : P s) : P t := by
  induction n generalizing s with
  | zero =>
    cases h
    exact hs
  | succ n ih =>
    obtain ⟨u, hu, hrun⟩ := run_succ_eq_next h
    exact ih hrun (hstep hu hs)

/-- What every agent's turn keeps, every schedule keeps. -/
theorem runSchedule_keeps {P : State → Prop} (hturn : ∀ {a s t}, agentTurn a s = .next t → P s → P t)
    {turns : List Agent} {s t : State} (h : runSchedule turns s = .next t) (hs : P s) : P t := by
  induction turns generalizing s with
  | nil =>
    cases h
    exact hs
  | cons a turns ih =>
    obtain ⟨u, hu, hrest⟩ := runSchedule_cons_eq_next h
    exact ih hrest (hturn hu hs)

/-! #### The ROM (R52) -/

/-- No operation writes the ROM. -/
theorem exec_rom {i : Instr} {s t : State} (h : exec i s = .next t) : t.rom = s.rom := by
  cases i with
  | draw | duty | rdly | waitd | waitms | ocrw | enset | dirset | pwmcfg | jmp => cases h; rfl

@[simp] theorem tickStep_rom (s : State) : (tickStep s).rom = s.rom := by
  by_cases hw : s.wcnt = 0
  · rw [tickStep_idle hw]
  · rw [tickStep_busy hw, record_rom, setWcnt_rom]

theorem sequencerStep_rom {s t : State} (h : sequencerStep s = .next t) : t.rom = s.rom := by
  obtain ⟨i, -, hi⟩ | ⟨why, -, hf⟩ := sequencerStep_cases s
  · exact exec_rom (hi ▸ h)
  · rw [hf] at h
    cases h
    exact raiseIllegalOp_rom s _

theorem step_rom {s t : State} (h : step s = .next t) : t.rom = s.rom := by
  obtain ⟨-, ⟨-, rfl⟩ | ⟨-, i, -, hi⟩ | ⟨-, -, rfl⟩⟩ := step_next_cases h
  · rfl
  · exact exec_rom hi
  · rfl

/-- No agent changes the ROM in its turn. -/
theorem agentTurn_rom {a : Agent} {s t : State} (h : agentTurn a s = .next t) : t.rom = s.rom := by
  cases a with
  | tickSource =>
    cases h
    exact tickStep_rom s
  | sequencer =>
    rw [agentTurn] at h
    split_ifs at h
    · exact sequencerStep_rom h
    · cases h
      rfl

/-- Settles O51: one operation, one step and one turn keep the whole image, so runs and schedules do, and with
it every byte read from it. -/
theorem romNeverChanges : Obligations.RomNeverChanges := by
  refine ⟨fun i s t h a => ?_, fun n s t h a => ?_, fun turns s t h a => ?_⟩
  · rw [exec_rom h]
  · have hrom : t.rom = s.rom := run_keeps (P := (·.rom = s.rom)) (fun hu => (step_rom hu).trans) h rfl
    rw [hrom]
  · have hrom : t.rom = s.rom :=
      runSchedule_keeps (P := (·.rom = s.rom)) (fun hu => (agentTurn_rom hu).trans) h rfl
    rw [hrom]

end Sys2Proof.Machine

/-! ### Proofs of the family of 30_encoding.md: illegal words and pseudo-instructions -/

namespace Sys2Proof

/-! #### The opcode field (R71, R74) -/

/-- The opcode of each operation's row (R74). -/
def Instr.opcode : Instr → BitVec 4
  | .draw => 0x1
  | .duty _ => 0x2
  | .rdly => 0x3
  | .waitd => 0x4
  | .waitms _ => 0x5
  | .ocrw _ _ => 0x6
  | .enset _ _ => 0x7
  | .dirset _ => 0x8
  | .pwmcfg => 0x9
  | .jmp _ => 0xA

/-- R74: an operation's word passes its own row's test. -/
theorem encode_and_mask (i : Instr) : encode i &&& (opcodeMatchMask i).2 = (opcodeMatchMask i).1 := by
  have hrow : Laws.Fixed.Statement i := by
    cases i with
    | draw => exact Laws.Fixed.draw
    | duty c => exact Laws.Fixed.duty c
    | rdly => exact Laws.Fixed.rdly
    | waitd => exact Laws.Fixed.waitd
    | waitms n => exact Laws.Fixed.waitms n
    | ocrw c n => exact Laws.Fixed.ocrw c n
    | enset c v => exact Laws.Fixed.enset c v
    | dirset m => exact Laws.Fixed.dirset m
    | pwmcfg => exact Laws.Fixed.pwmcfg
    | jmp t => exact Laws.Fixed.jmp t
  exact beq_iff_eq.1 hrow

theorem fieldOp_and (w m : Word) : fieldOp (w &&& m) = fieldOp w &&& fieldOp m := BitVec.extractLsb'_and

theorem fieldOp_toNat (w : Word) : (fieldOp w).toNat = w.toNat / 4096 := by
  have hw : w.toNat < 65536 := w.isLt
  rw [fieldOp, BitVec.extractLsb'_toNat, Nat.shiftRight_eq_div_pow]
  omega

/-- Every row's mask tests the whole opcode, and its match holds the row's opcode there. -/
theorem fieldOp_encode (i : Instr) : fieldOp (encode i) = i.opcode := by
  have hmask : fieldOp (opcodeMatchMask i).2 = BitVec.allOnes 4 := by
    cases i <;> simp [fieldOp, opcodeMatchMask]
  have hmatch : fieldOp (opcodeMatchMask i).1 = i.opcode := by
    cases i <;> simp [fieldOp, opcodeMatchMask, Instr.opcode]
  rw [← hmatch, ← encode_and_mask, fieldOp_and, hmask, BitVec.and_allOnes]

/-! #### Must-be-zero bits (R72, R75, R76) -/

/-- The must-be-zero fields of an operation's format (R72), each as its lowest bit and its width. -/
def Instr.zeroFields : Instr → List (Nat × Nat)
  | .draw | .rdly | .waitd | .pwmcfg => [(0, 12)]
  | .duty _ => [(9, 3), (0, 8)]
  | .waitms _ => []
  | .ocrw _ _ => [(9, 3)]
  | .enset _ _ => [(9, 3), (1, 7)]
  | .dirset _ => [(2, 10)]
  | .jmp _ => [(8, 4)]

/-- R75's test of a row fails when one of its must-be-zero fields is not zero. -/
theorem decodeWord_of_zeroField_ne {w : Word} {i : Instr} {f : Nat × Nat} (hop : fieldOp w = i.opcode)
    (hf : f ∈ i.zeroFields) (hne : w.extractLsb' f.1 f.2 ≠ 0#f.2) :
    decodeWord w = .illegal (.reservedBitSet (fieldOp w)) := by
  cases i with
  | draw | rdly | waitd | pwmcfg | ocrw | dirset | jmp =>
    obtain rfl := List.mem_singleton.1 hf
    simp [decodeWord, hop, Instr.opcode, beq_false_of_ne hne]
  | duty | enset =>
    obtain rfl | rfl := List.mem_pair.1 hf <;> simp [decodeWord, hop, Instr.opcode, beq_false_of_ne hne]
  | waitms => exact absurd hf List.not_mem_nil

/-- The bits below the opcode that a row's mask tests lie in the must-be-zero fields of its format. -/
theorem exists_zeroField_of_mask {i : Instr} {k : Nat} (hk : k < 12)
    (hmask : (opcodeMatchMask i).2.getLsbD k = true) : ∃ f ∈ i.zeroFields, f.1 ≤ k ∧ k < f.1 + f.2 := by
  revert k
  cases i with
  | draw | duty | rdly | waitd | waitms | ocrw | enset | dirset | pwmcfg | jmp =>
    simp only [opcodeMatchMask, Instr.zeroFields]
    decide

/-- A field with a 1 in it is not zero. -/
theorem extractLsb'_ne_zero {w : Word} {start len k : Nat} (hlo : start ≤ k) (hhi : k < start + len)
    (hbit : w.getLsbD k = true) : w.extractLsb' start len ≠ 0#len := by
  intro hzero
  have hk : (w.extractLsb' start len).getLsbD (k - start) = w.getLsbD k := by
    rw [BitVec.getLsbD_extractLsb', decide_eq_true (by omega), Bool.true_and, Nat.add_sub_cancel' hlo]
  simp [hzero, hbit] at hk

/-- R76: a 1 in a must-be-zero bit makes a word of an assigned opcode ILLEGAL. -/
theorem decodeWord_of_reservedBit {w : Word} {i : Instr} {k : Nat} (hop : fieldOp w = i.opcode) (hk : k < 12)
    (hmask : (opcodeMatchMask i).2.getLsbD k = true) (hbit : w.getLsbD k = true) :
    decodeWord w = .illegal (.reservedBitSet (fieldOp w)) := by
  obtain ⟨f, hf, hlo, hhi⟩ := exists_zeroField_of_mask hk hmask
  exact decodeWord_of_zeroField_ne hop hf (extractLsb'_ne_zero hlo hhi hbit)

/-! #### Unassigned opcodes (R75, R77) -/

/-- R75's last line: opcodes 0x0 and 0xB to 0xF have no row. -/
theorem decodeWord_of_unassigned {w : Word} (h : (fieldOp w).toNat = 0 ∨ 11 ≤ (fieldOp w).toNat) :
    decodeWord w = .illegal (.unassignedOpcode (fieldOp w)) := by
  rw [decodeWord]
  split
  case h_11 => rfl
  all_goals omega

/-! #### The word of a jump (R72, R75) -/

theorem encode_jmp_toNat (t : Byte) : (encode (.jmp t)).toNat = 0xA000 + t.toNat := by
  calc (encode (.jmp t)).toNat
    _ = 0xA0 <<< 8 ||| t.toNat := BitVec.toNat_append (0xA#4 ++ 0#4) t
    _ = 0xA0 <<< 8 + t.toNat := (Nat.shiftLeft_add_eq_or_of_lt t.isLt _).symm

theorem decodeWord_encode_jmp (t : Byte) : decodeWord (encode (.jmp t)) = .op (.jmp t) := by
  have hzero : (encode (.jmp t)).extractLsb' 8 4 = 0#4 :=
    BitVec.extractLsb'_append_eq_of_le (xhi := 0xA#4 ++ 0#4) (xlo := t) (Nat.le_refl 8)
  have himm : fieldImm8 (encode (.jmp t)) = t :=
    BitVec.extractLsb'_append_eq_right (a := 0xA#4 ++ 0#4) (b := t)
  simp [decodeWord, fieldOp_encode, Instr.opcode, hzero, himm]

end Sys2Proof

namespace Sys2Proof.Machine

/-- Settles O5: the set bit lies in a must-be-zero field, so R75's test of the row fails, and a READY step takes
the fault on the ILLEGAL word it fetches. -/
theorem mustBeZeroBitIsIllegal : Obligations.MustBeZeroBitIsIllegal := by
  intro w i k hop hk hmask hbit
  have hdec := decodeWord_of_reservedBit (hop.trans (fieldOp_encode i)) hk hmask hbit
  refine ⟨hdec, fun s hf hw hfetch => ?_⟩
  subst hfetch
  exact step_of_ready_illegal (phase_eq_ready.2 ⟨hf, hw⟩) hdec

/-- Settles O6: no row has the opcode, the READY step faults on any ILLEGAL word, and a jump leaves the sequencer
READY, so that the fault at its target is the next step. -/
theorem unassignedOpcodeIsIllegal : Obligations.UnassignedOpcodeIsIllegal := by
  have hzero : decodeWord 0x0000 = .illegal (.unassignedOpcode 0) := decodeWord_of_unassigned (.inl rfl)
  refine ⟨fun w h => decodeWord_of_unassigned (fieldOp_toNat w ▸ h), hzero,
    fun s why hf hw hdec => step_of_ready_illegal (phase_eq_ready.2 ⟨hf, hw⟩) hdec, fun s t hf hw hrom => ?_⟩
  have hfetch : fetchWord (setPc t s) = 0x0000 := hrom
  have hready : phase (setPc t s) = .ready := phase_eq_ready.2 ⟨hf, hw⟩
  refine ⟨setPc t s, exec_jmp s t, ?_⟩
  rw [step_of_ready_illegal hready (hfetch ▸ hzero), hfetch]

/-! #### Pseudo-instructions (R82, R83) -/

@[simp] theorem asmChannel_toNat (c : Channel) : asmChannel c.toNat = some c := by cases c <;> rfl

@[simp] theorem asmField_toNat {n : Nat} (x : BitVec n) : asmField n x.toNat = some x := by
  rw [asmField, if_pos x.isLt, BitVec.ofNat_toNat, BitVec.setWidth_eq]

/-- A READY sequencer at a jump to its own address stays in its state. -/
theorem step_of_self_jump {s : State} (hp : phase s = .ready) (hfetch : fetchWord s = encode (.jmp s.pc)) :
    step s = .next s := by
  have hdec : decodeWord (fetchWord s) = .op (.jmp s.pc) := hfetch ▸ decodeWord_encode_jmp s.pc
  calc step s
    _ = exec (.jmp s.pc) s := step_of_ready_op hp hdec
    _ = .next s := exec_jmp s s.pc

/-- Settles O9: operands in range assemble to themselves, each expansion's word is R72's, and STOP is a jump to its
own address. -/
theorem pseudoInstructions : Obligations.PseudoInstructions := by
  refine ⟨fun labels here c => ⟨rfl, rfl, ?_, ?_, ?_, ?_, ?_, ?_, rfl, rfl⟩,
    fun labels a => ⟨?_, encode_jmp_toNat a⟩,
    fun s hf hw hfetch => step_of_self_jump (phase_eq_ready.2 ⟨hf, hw⟩) hfetch⟩
  · simp [assembleOp]
  · cases c <;> rfl
  · simp [assembleOp]
  · cases c <;> rfl
  · simp [assembleOp, Config.minDuty]
  · cases c <;> rfl
  · simp [assembleOp]

end Sys2Proof.Machine

/-! ### Proofs of the family of 40_prg.md -/

namespace Sys2Proof

/-! #### The word of DRAW (R72, R75) -/

/-- A word is its opcode and the twelve bits below it (R71). -/
theorem fieldOp_append_fieldImm12 (w : Word) : fieldOp w ++ fieldImm12 w = w :=
  (BitVec.extractLsb'_append_extractLsb'_eq_extractLsb' rfl).trans BitVec.extractLsb'_eq_self

/-- R75's row of opcode 1: DRAW's word is the only one of its opcode that is not ILLEGAL. -/
theorem decodeWord_of_draw_opcode {w : Word} (hop : fieldOp w = Instr.draw.opcode) (hne : w ≠ encode .draw) :
    decodeWord w = .illegal (.reservedBitSet (fieldOp w)) := by
  have hlow : fieldImm12 w ≠ 0#12 := by
    intro hzero
    apply hne
    calc w
      _ = fieldOp w ++ fieldImm12 w := (fieldOp_append_fieldImm12 w).symm
      _ = Instr.draw.opcode ++ 0#12 := by rw [hop, hzero]
  exact decodeWord_of_zeroField_ne hop (List.mem_singleton.2 rfl) hlow

end Sys2Proof

namespace Sys2Proof.Machine

/-! #### The step of the LFSR (R101 to R103) -/

theorem lfsrGuard_toNat (s : Word) : (lfsrGuard s).toNat = if s.toNat = 0 then 1 else s.toNat := by
  by_cases hs : s = 0x0000
  · rw [lfsrGuard, if_pos hs, hs]
    rfl
  · have hn : s.toNat ≠ 0 := fun h => hs (BitVec.eq_of_toNat_eq h)
    rw [lfsrGuard, if_neg hs, if_neg hn]

theorem getLsbD_toNat (g : Word) (i : Nat) : (g.getLsbD i).toNat = g.toNat / 2 ^ i % 2 := by
  rw [← BitVec.testBit_toNat, Nat.toNat_testBit]

theorem xor_toNat (a b : Bool) : (a ^^ b).toNat = (a.toNat + b.toNat) % 2 := by
  cases a <;> cases b <;> rfl

/-- The exclusive-or of any list of taps is the parity of the sum of their bits. -/
theorem foldl_xor_taps_toNat (g : Word) (taps : List Nat) (f : Bool) :
    (taps.foldl (fun f tap => f ^^ g.getLsbD tap) f).toNat =
      (f.toNat + (taps.map (g.toNat / 2 ^ ·)).sum) % 2 := by
  induction taps generalizing f with
  | nil => exact (Nat.mod_eq_of_lt f.toNat_lt).symm
  | cons tap taps ih =>
    rw [List.foldl_cons, ih, xor_toNat, getLsbD_toNat, List.map_cons, List.sum_cons]
    omega

/-- R102 in numbers: the parity of bits 15, 14, 12 and 3. -/
theorem lfsrFb_toNat (g : Word) : (lfsrFb g).toNat =
    (g.toNat / 2 ^ 15 + g.toNat / 2 ^ 14 + g.toNat / 2 ^ 12 + g.toNat / 2 ^ 3) % 2 := by
  rw [lfsrFb, foldl_xor_taps_toNat]
  simp [Config.lfsrTaps, Nat.add_assoc]

/-- R103 in numbers: twice the guarded state plus the feedback bit, modulo 2^16. -/
theorem lfsrNext_toNat (s : Word) :
    (lfsrNext s).toNat = (2 * (lfsrGuard s).toNat + (lfsrFb (lfsrGuard s)).toNat) % 2 ^ 16 := by
  have hshift : (lfsrGuard s <<< 1).toNat = 2 * (lfsrGuard s).toNat % 2 ^ 16 := by
    rw [BitVec.toNat_shiftLeft, Nat.shiftLeft_eq, Nat.pow_one, Nat.mul_comm]
  rw [lfsrNext, BitVec.toNat_add, BitVec.toNat_setWidth, BitVec.toNat_ofBool, hshift,
    Nat.add_mod_mod, Nat.mod_add_mod]

/-- Settles O10: the guard by cases on the zero state, the feedback bit by induction over the taps, and the sum
modulo 2^16 from the shift's. -/
theorem lfsrStepArithmetic : Obligations.LfsrStepArithmetic :=
  fun s => ⟨lfsrGuard_toNat s, lfsrFb_toNat, lfsrNext_toNat s⟩

/-! #### DRAW (R108) -/

/-- Settles O22: DRAW is a draw and the PC's advance, and a word of its opcode other than its own has a 1 below
the opcode. -/
theorem drawResult : Obligations.DrawResult := by
  refine ⟨exec_draw, by decide, fun w hw hne => ⟨_, decodeWord_of_draw_opcode ?_ hne⟩⟩
  exact BitVec.eq_of_toNat_eq ((fieldOp_toNat w).trans hw)

end Sys2Proof.Machine

namespace Sys2Proof.Machine

/-! #### Clamp and reduce (R120, R124) -/

/-- R120 in numbers: the residue modulo 255 and the floor both fit in 8 bits, so the write to a byte drops nothing. -/
theorem dutyOf_toNat (d : Word) : (dutyOf d).toNat = if d.toNat % 255 < 50 then 50 else d.toNat % 255 := by
  have hres : d.toNat % 255 < 255 := Nat.mod_lt _ (by decide)
  refine (BitVec.toNat_ofNat _ _).trans (Nat.mod_eq_of_lt ?_)
  change (if d.toNat % 255 < 50 then 50 else d.toNat % 255) < 2 ^ 8
  split
  · decide
  · exact hres.trans (by decide)

theorem residue_lt_maxDelayMs (d : Word) : d.toNat % Config.maxDelayMs < Config.maxDelayMs :=
  Nat.mod_lt _ (by decide)

/-- R124 in numbers: the residue modulo 50 fits in 6 bits, so `trunc_6` drops nothing. -/
theorem delayOf_toNat (d : Word) : (delayOf d).toNat = d.toNat % Config.maxDelayMs :=
  (BitVec.toNat_ofNat _ _).trans (Nat.mod_eq_of_lt ((residue_lt_maxDelayMs d).trans (by decide)))

theorem delayOf_lt_maxDelayMs (d : Word) : (delayOf d).toNat < Config.maxDelayMs :=
  (delayOf_toNat d).trans_lt (residue_lt_maxDelayMs d)

/-- Settles O17: the floored residue fits in a byte. -/
theorem dutyOfValue : Obligations.DutyOfValue := dutyOf_toNat

/-- Settles O20: the residue fits in 6 bits, and a residue modulo 50 is at most 49. -/
theorem delayOfValue : Obligations.DelayOfValue :=
  fun d => ⟨delayOf_toNat d, Nat.le_of_lt_succ (delayOf_lt_maxDelayMs d)⟩

end Sys2Proof.Machine

/-! ### Proofs of the family of 42_sequencer.md -/

namespace Sys2Proof

/-! #### Words in numbers (R72) -/

/-- A word in numbers, from the format's last operand and the bits above it. -/
theorem append_toNat {m n : Nat} (x : BitVec m) (y : BitVec n) :
    (x ++ y).toNat = x.toNat * 2 ^ n + y.toNat := by
  rw [BitVec.toNat_append, ← Nat.shiftLeft_add_eq_or_of_lt y.isLt, Nat.shiftLeft_eq]

theorem encode_waitms_toNat (n : BitVec 12) : (encode (.waitms n)).toNat = 0x5000 + n.toNat :=
  append_toNat 0x5#4 n

theorem encode_duty_toNat (c : Channel) : (encode (.duty c)).toNat = 0x2000 + c.toNat * 0x100 := by
  cases c <;> rfl

theorem encode_ocrw_toNat (c : Channel) (v : Byte) :
    (encode (.ocrw c v)).toNat = 0x6000 + c.toNat * 0x100 + v.toNat := by
  have hhigh : (0x6#4 ++ 0#3 ++ c.bit).toNat * 2 ^ 8 = 0x6000 + c.toNat * 0x100 := by cases c <;> rfl
  rw [encode, append_toNat, hhigh]

theorem encode_enset_toNat (c : Channel) (v : Bool) :
    (encode (.enset c v)).toNat = 0x7000 + c.toNat * 0x100 + v.toNat := by
  cases c <;> cases v <;> rfl

theorem encode_dirset_toNat (m : BitVec 2) : (encode (.dirset m)).toNat = 0x8000 + m.toNat :=
  append_toNat (0x8#4 ++ 0#10) m

end Sys2Proof

namespace Sys2Proof.Machine

/-! #### The agents' turns (R141, R142) -/

theorem agentTurn_sequencer_of_ready {s : State} (hp : phase s = .ready) :
    agentTurn .sequencer s = step s := by
  obtain ⟨hf, hw⟩ := phase_eq_ready.1 hp
  rw [step_of_ready hf hw]
  exact if_pos hp

theorem agentTurn_sequencer_of_not_ready {s : State} (hp : phase s ≠ .ready) :
    agentTurn .sequencer s = .next s := if_neg hp

theorem agentTurn_tickSource (s : State) : agentTurn .tickSource s = .next (tickStep s) := rfl

/-- Counting down from a value that is not 0 does not wrap. -/
theorem sub_one_toNat {n : BitVec 12} (hn : n ≠ 0) : (n - 1).toNat = n.toNat - 1 := by
  have hpos : n.toNat ≠ 0 := fun h => hn (BitVec.eq_of_toNat_eq h)
  exact BitVec.toNat_sub_of_le (BitVec.le_def.2 (Nat.one_le_iff_ne_zero.2 hpos))

/-! #### Waiting out ticks (R142, R143) -/

/-- Ticks of a wait that lasts at least so many: each counts WCNT down and is recorded, and nothing else
changes. -/
theorem runSchedule_ticks {k : Nat} {s : State} (hk : k ≤ s.wcnt.toNat) :
    ∃ u, runSchedule (List.replicate k .tickSource) s = .next u ∧ u.wcnt.toNat = s.wcnt.toNat - k ∧
      u.fault = s.fault ∧ u.pc = s.pc ∧ u.history = s.history ++ List.replicate k .tick := by
  induction k generalizing s with
  | zero => exact ⟨s, rfl, rfl, rfl, rfl, (List.append_nil _).symm⟩
  | succ k ih =>
    have hne : s.wcnt ≠ 0 := by
      intro h
      have hzero : s.wcnt.toNat = 0 := congrArg BitVec.toNat h
      omega
    have hcount : (tickStep s).wcnt.toNat = s.wcnt.toNat - 1 := by
      rw [tickStep_busy hne]
      exact sub_one_toNat hne
    obtain ⟨u, hrun, hwcnt, hfault, hpc, hhist⟩ := ih (s := tickStep s) (by omega)
    refine ⟨u, hrun, by omega, ?_, ?_, ?_⟩
    · rw [hfault, tickStep_busy hne, record_fault, setWcnt_fault]
    · rw [hpc, tickStep_busy hne, record_pc, setWcnt_pc]
    · rw [hhist, tickStep_busy hne, record_history, setWcnt_history, List.append_assoc]
      rfl

/-- Fewer ticks than WCNT leave the sequencer WAITING. -/
theorem waiting_after_fewer_ticks {k : Nat} {s : State} (hf : s.fault = false) (hk : k < s.wcnt.toNat) :
    ∃ u, runSchedule (List.replicate k .tickSource) s = .next u ∧ phase u = .waiting := by
  obtain ⟨u, hrun, hwcnt, hfault, -, -⟩ := runSchedule_ticks hk.le
  refine ⟨u, hrun, phase_eq_waiting.2 ⟨hfault.trans hf, fun h => ?_⟩⟩
  have hzero : u.wcnt.toNat = 0 := congrArg BitVec.toNat h
  omega

/-- After exactly WCNT ticks, all recorded, the sequencer is READY at the same PC. -/
theorem ready_after_all_ticks {s : State} (hf : s.fault = false) :
    ∃ u, runSchedule (List.replicate s.wcnt.toNat .tickSource) s = .next u ∧ phase u = .ready ∧ u.pc = s.pc ∧
      u.history = s.history ++ List.replicate s.wcnt.toNat .tick := by
  obtain ⟨u, hrun, hwcnt, hfault, hpc, hhist⟩ := runSchedule_ticks (le_refl s.wcnt.toNat)
  have hzero : u.wcnt = 0 := BitVec.eq_of_toNat_eq (hwcnt.trans (Nat.sub_self _))
  exact ⟨u, hrun, phase_eq_ready.2 ⟨hfault.trans hf, hzero⟩, hpc, hhist⟩

theorem delayTicks_toNat (d : BitVec 6) : (delayTicks d).toNat = d.toNat :=
  BitVec.toNat_setWidth_of_le (by decide)

/-- Settles O26: WAITMS leaves WCNT at n, and a wait lasts exactly WCNT ticks. -/
theorem waitmsResult : Obligations.WaitmsResult := by
  refine ⟨encode_waitms_toNat, fun n s => exec_waitms s n, fun n s t hf h => ?_⟩
  rw [exec_waitms] at h
  cases h
  exact ⟨fun k hk => waiting_after_fewer_ticks hf hk, ready_after_all_ticks (s := advancePc (setWcnt n s)) hf⟩

/-- WAITD is the fixed wait of DLY's value (R150, R151). -/
theorem exec_waitd_eq_waitms (s : State) : exec .waitd s = exec (.waitms (delayTicks s.dly)) s := rfl

/-- Settles O25: WAITD is WAITMS of DLY's value, whose wait O26 gives. -/
theorem waitdResult : Obligations.WaitdResult := by
  obtain ⟨-, hexec, hwait⟩ := waitmsResult
  refine ⟨by decide, fun s => ?_, fun s t hf h => ?_⟩
  · rw [BitVec.ofNat_toNat]
    exact hexec (delayTicks s.dly) s
  · rw [← delayTicks_toNat s.dly]
    exact hwait _ s t hf (exec_waitd_eq_waitms s ▸ h)

/-! #### The drawing operations (R146, R148) -/

theorem ocrReg_eq_ite (c : Channel) : ocrReg c = if c = .ch0 then .ocr0 else .ocr1 := by
  cases c <;> rfl

/-- Settles O23: DUTY's updates written out as one state. -/
theorem dutyResult : Obligations.DutyResult := by
  intro c s n
  refine ⟨?_, encode_duty_toNat c⟩
  rw [← ocrReg_eq_ite]
  exact exec_duty s c

/-- Settles O24: RDLY's updates written out as one state, and R124's value of the delay. -/
theorem rdlyResult : Obligations.RdlyResult :=
  ⟨fun s => ⟨exec_rdly s, delayOf_toNat _⟩, by decide⟩

/-! #### The register writes without a draw (R152 to R158) -/

/-- Settles O27: OCRW's updates written out as one state. -/
theorem ocrwResult : Obligations.OcrwResult := by
  intro c v s
  refine ⟨?_, encode_ocrw_toNat c v⟩
  rw [← ocrReg_eq_ite]
  exact exec_ocrw s c v

/-- OUTEN and DIR in numbers: channel 1's bit counts two (R53). -/
theorem pairByte_eq_ofNat (p : PerChannel Bool) :
    pairByte p = BitVec.ofNat 8 (2 * p.ch1.toNat + p.ch0.toNat) := by
  obtain ⟨a, b⟩ := p
  cases a <;> cases b <;> rfl

theorem PerChannel.set_eq_ite {α : Type} (p : PerChannel α) (c : Channel) (v : α) :
    p.set c v = if c = .ch0 then ⟨v, p.ch1⟩ else ⟨p.ch0, v⟩ := by
  cases c <;> rfl

/-- Settles O28: ENSET's updates written out as one state, OUTEN's value in numbers. -/
theorem ensetResult : Obligations.EnsetResult := by
  intro c v s en
  refine ⟨?_, encode_enset_toNat c v⟩
  have hen : s.en.set c v = en := s.en.set_eq_ite c v
  rw [← hen, ← pairByte_eq_ofNat]
  exact exec_enset s c v

theorem maskChannels_eq_digits (m : BitVec 2) : maskChannels m = ⟨m.toNat % 2 = 1, m.toNat / 2 = 1⟩ := by
  revert m
  decide

/-- Settles O29: DIRSET's updates written out as one state, the mask's bits as its binary digits. -/
theorem dirsetResult : Obligations.DirsetResult := by
  intro m s
  refine ⟨?_, encode_dirset_toNat m⟩
  rw [← maskChannels_eq_digits, BitVec.ofNat_toNat]
  exact exec_dirset s m

theorem setPwmOn_of_pwmOn {s : State} (h : s.pwmOn = true) : setPwmOn s = s := by
  rw [setPwmOn, ← h]

/-- Settles O30: PWMCFG's updates written out as one state, and setting PWM_ON again changes nothing. -/
theorem pwmcfgResult : Obligations.PwmcfgResult := by
  refine ⟨exec_pwmcfg, fun s hon => ?_, by decide⟩
  rw [exec_pwmcfg, setPwmOn_of_pwmOn hon]
  rfl

/-! #### The jump (R160) -/

/-- Settles O31: a jump leaves the sequencer READY at its target, so the fault there is the next step. -/
theorem jmpResult : Obligations.JmpResult := by
  refine ⟨fun t s => ⟨exec_jmp s t, encode_jmp_toNat t⟩, fun t s why hf hw hdec => ⟨setPc t s, exec_jmp s t, ?_⟩⟩
  have hready : phase (setPc t s) = .ready := phase_eq_ready.2 ⟨hf, hw⟩
  exact step_of_ready_illegal hready hdec

/-! #### The sequencer's step and the tick -/

/-- Settles O38: READY is FAULT 0 and WCNT 0, where the step is the sequencer's turn. -/
theorem stepRunsDecodedOperation : Obligations.StepRunsDecodedOperation := by
  intro s
  refine ⟨fun i hf hw hdec => ?_, fun why hf hw hdec => ?_, fun hnot => ?_⟩
  · have hready := phase_eq_ready.2 ⟨hf, hw⟩
    have hstep := step_of_ready_op hready hdec
    exact ⟨hstep, (agentTurn_sequencer_of_ready hready).trans hstep⟩
  · have hready := phase_eq_ready.2 ⟨hf, hw⟩
    have hstep := step_of_ready_illegal hready hdec
    exact ⟨hstep, (agentTurn_sequencer_of_ready hready).trans hstep⟩
  · exact agentTurn_sequencer_of_not_ready fun hp => hnot (phase_eq_ready.1 hp)

/-- Settles O41: a tick of a wait counts down without wrapping, and a tick with no wait is lost. -/
theorem tickResult : Obligations.TickResult := by
  intro s
  refine ⟨fun hw => ?_, fun hw => ?_⟩
  · have hcount : s.wcnt - 1 = BitVec.ofNat 12 (s.wcnt.toNat - 1) := by
      rw [← sub_one_toNat hw, BitVec.ofNat_toNat, BitVec.setWidth_eq]
    rw [agentTurn_tickSource, tickStep_busy hw, hcount]
    rfl
  · rw [agentTurn_tickSource, tickStep_idle hw]

end Sys2Proof.Machine

/-! ### Proofs of the family of 60_exceptions.md -/

namespace Sys2Proof.Machine

/-! #### The fault record (R200) -/

/-- No operation's meaning stops: each arm of exec ends in a next state. -/
theorem exec_completes (i : Instr) (s : State) : ∃ t, exec i s = .next t := by
  cases i with
  | draw | duty | rdly | waitd | waitms | ocrw | enset | dirset | pwmcfg | jmp => exact ⟨_, rfl⟩

/-- No operation writes the fault record. -/
theorem exec_keeps_faultRecord {i : Instr} {s t : State} (h : exec i s = .next t) :
    t.fault = s.fault ∧ t.fcause = s.fcause ∧ t.fword = s.fword := by
  cases i with
  | draw | duty | rdly | waitd | waitms | ocrw | enset | dirset | pwmcfg | jmp =>
    cases h
    exact ⟨rfl, rfl, rfl⟩

/-- Settles O32: a READY step runs the decoded operation, which keeps FAULT clear, or raises the fault. -/
theorem onlyIllegalWordsFault : Obligations.OnlyIllegalWordsFault := by
  refine ⟨fun i s => ?_, fun s hp => ?_⟩
  · obtain ⟨t, h⟩ := exec_completes i s
    exact ⟨t, h, exec_keeps_faultRecord h⟩
  · cases hd : decodeWord (fetchWord s) with
    | op i =>
      obtain ⟨t, h⟩ := exec_completes i s
      obtain ⟨hfault, -, -⟩ := exec_keeps_faultRecord h
      have hclear : t.fault = false := hfault.trans (phase_eq_ready.1 hp).1
      have hlegal : ¬ ∃ why, decodeWord (fetchWord s) = .illegal why := by simp [hd]
      exact ⟨t, (step_of_ready_op hp hd).trans h, by simp [hclear], fun hill => absurd hill hlegal⟩
    | illegal why => exact ⟨_, step_of_ready_illegal hp hd, fun _ => ⟨why, hd⟩, fun _ => raiseIllegalOp_fault s _⟩

/-! #### The fault entry (R202) -/

/-- Settles O39: the state `raiseIllegalOp` makes, written out field by field. -/
theorem faultEntry : Obligations.FaultEntry :=
  fun _ _ hf hw hd => step_of_ready_illegal (phase_eq_ready.2 ⟨hf, hw⟩) hd

end Sys2Proof.Machine

/-! ### Proofs of the family of encoding and decoding (30_encoding.md sections 1 to 4) -/

namespace Sys2Proof

/-! #### A word and its fields (R71, R72, R75) -/

theorem Channel.bit_inj {c d : Channel} (h : c.bit = d.bit) : c = d := by
  cases c with
  | ch0 =>
    cases d with
    | ch0 => rfl
    | ch1 => exact absurd h (by decide)
  | ch1 =>
    cases d with
    | ch0 => exact absurd h (by decide)
    | ch1 => rfl

theorem ofBool_getLsbD (w : Word) (k : Nat) : BitVec.ofBool (w.getLsbD k) = w.extractLsb' k 1 := by
  ext j hj
  obtain rfl : j = 0 := by omega
  simp

/-- The channel bit of a word's channel field is the word's bit 8. -/
theorem bit_fieldC (w : Word) : (fieldC w).bit = w.extractLsb' 8 1 := by
  rw [← ofBool_getLsbD, fieldC]
  cases w.getLsbD 8 <;> rfl

theorem decodeWord_encode_waitms (n : BitVec 12) : decodeWord (encode (.waitms n)) = .op (.waitms n) := by
  have himm : fieldImm12 (encode (.waitms n)) = n := BitVec.extractLsb'_append_eq_right (a := 0x5#4) (b := n)
  simp [decodeWord, fieldOp_encode, Instr.opcode, himm]

theorem decodeWord_encode_ocrw (c : Channel) (n : Byte) : decodeWord (encode (.ocrw c n)) = .op (.ocrw c n) := by
  have hhigh (start len : Nat) : (encode (.ocrw c n)).extractLsb' (8 + start) len =
      (0x6#4 ++ 0#3 ++ c.bit).extractLsb' start len := by
    rw [encode, BitVec.extractLsb'_append_eq_of_le (Nat.le_add_right 8 start), Nat.add_sub_cancel_left]
  have hzero : (encode (.ocrw c n)).extractLsb' 9 3 = 0#3 := (hhigh 1 3).trans (by cases c <;> rfl)
  have hc : fieldC (encode (.ocrw c n)) = c :=
    Channel.bit_inj ((bit_fieldC _).trans ((hhigh 0 1).trans (by cases c <;> rfl)))
  have himm : fieldImm8 (encode (.ocrw c n)) = n :=
    BitVec.extractLsb'_append_eq_right (a := 0x6#4 ++ 0#3 ++ c.bit) (b := n)
  simp [decodeWord, fieldOp_encode, Instr.opcode, hzero, hc, himm]

theorem decodeWord_encode (i : Instr) : decodeWord (encode i) = .op i := by
  cases i with
  | draw | rdly | waitd | pwmcfg => rfl
  | duty c => cases c <;> rfl
  | waitms n => exact decodeWord_encode_waitms n
  | ocrw c n => exact decodeWord_encode_ocrw c n
  | enset c v => cases c <;> cases v <;> rfl
  | dirset m =>
    revert m
    decide
  | jmp t => exact decodeWord_encode_jmp t

/-- The bytes of a word in a ROM image decode as the word (R55, R70). -/
theorem decode_wordBytes_append (w : Word) (rest : List Byte) : decode (wordBytes w ++ rest) = decodeWord w :=
  congrArg decodeWord (Machine.wordOfBytes_imageByte w)

/-- The operation of i's row with the operands read from a word (R71, R75). -/
def Instr.withFields (w : Word) : Instr → Instr
  | .draw => .draw
  | .duty _ => .duty (fieldC w)
  | .rdly => .rdly
  | .waitd => .waitd
  | .waitms _ => .waitms (fieldImm12 w)
  | .ocrw _ _ => .ocrw (fieldC w) (fieldImm8 w)
  | .enset _ _ => .enset (fieldC w) (fieldV w)
  | .dirset _ => .dirset (fieldM w)
  | .pwmcfg => .pwmcfg
  | .jmp _ => .jmp (fieldImm8 w)

/-- A word has the format of i's row: its opcode, and zeros in its must-be-zero fields (R72). -/
structure HasFormat (w : Word) (i : Instr) : Prop where
  opcode : fieldOp w = i.opcode
  zero : ∀ f ∈ i.zeroFields, w.extractLsb' f.1 f.2 = 0#f.2

/-- R75 on a word of a row's format: the row's operation, its operands read from the word. -/
theorem HasFormat.decodeWord_eq {w : Word} {i : Instr} (h : HasFormat w i) :
    decodeWord w = .op (i.withFields w) := by
  obtain ⟨hop, hzero⟩ := h
  cases i with
  | draw | duty | rdly | waitd | waitms | ocrw | enset | dirset | pwmcfg | jmp =>
    simp only [Instr.zeroFields, List.forall_mem_cons] at hzero
    simp [decodeWord, hop, hzero, Instr.opcode, Instr.withFields]

/-- R75 read backwards: only the words of a row's format decode to its operations. -/
theorem hasFormat_of_decodeWord {w : Word} {i : Instr} (h : decodeWord w = .op i) :
    HasFormat w i ∧ i.withFields w = i := by
  rw [decodeWord] at h
  split at h
  case h_11 => cases h
  case h_5 hop =>
    cases h
    exact ⟨⟨BitVec.eq_of_toNat_eq hop, by simp [Instr.zeroFields]⟩, rfl⟩
  all_goals
    next hop =>
      obtain ⟨hzero, rfl⟩ := whenZero_eq_op.1 h
      exact ⟨⟨BitVec.eq_of_toNat_eq hop, by simpa [Instr.zeroFields] using hzero⟩, rfl⟩

/-- The fields of a format are all of the word, so writing them out again gives the word. -/
theorem HasFormat.encode_withFields {w : Word} {i : Instr} (h : HasFormat w i) : encode (i.withFields w) = w := by
  obtain ⟨hop, hzero⟩ := h
  have hjoin {low width high : Nat} (hhigh : high = low + width) (n : Nat) :
      w.extractLsb' high n ++ w.extractLsb' low width = w.extractLsb' low (n + width) :=
    BitVec.extractLsb'_append_extractLsb'_eq_extractLsb' hhigh
  have hwhole : w.extractLsb' 0 16 = w := BitVec.extractLsb'_eq_self
  cases i with
  | draw | duty | rdly | waitd | waitms | ocrw | enset | dirset | pwmcfg | jmp =>
    simp only [Instr.opcode, BitVec.ofNat_eq_ofNat] at hop
    simp only [Instr.zeroFields, List.forall_mem_cons] at hzero
    simp only [Instr.withFields, encode, bit_fieldC, ofBool_getLsbD, fieldV, ← hzero, ← hop]
    simp [fieldOp, hjoin, fieldImm8, fieldImm12, fieldM, hwhole]

/-- Each operation has one word, and each word at most one operation. -/
theorem decodeWord_eq_op_iff {w : Word} {i : Instr} : decodeWord w = .op i ↔ encode i = w := by
  refine ⟨fun h => ?_, fun h => h ▸ decodeWord_encode i⟩
  obtain ⟨hformat, hfields⟩ := hasFormat_of_decodeWord h
  exact hfields ▸ hformat.encode_withFields

/-! #### The opcode map's match and mask (R74) -/

/-- A row's mask tests each must-be-zero field of its format whole, and its match is zero there. -/
theorem opcodeMatchMask_zeroField {i : Instr} {f : Nat × Nat} (hf : f ∈ i.zeroFields) :
    (opcodeMatchMask i).2.extractLsb' f.1 f.2 = BitVec.allOnes f.2 ∧
      (opcodeMatchMask i).1.extractLsb' f.1 f.2 = 0#f.2 := by
  revert f
  cases i with
  | draw | duty | rdly | waitd | waitms | ocrw | enset | dirset | pwmcfg | jmp =>
    simp only [opcodeMatchMask, Instr.zeroFields]
    decide

/-- A row's mask tests the whole opcode, and its match holds the row's there. -/
theorem opcodeMatchMask_opcode (i : Instr) :
    fieldOp (opcodeMatchMask i).2 = BitVec.allOnes 4 ∧ fieldOp (opcodeMatchMask i).1 = i.opcode := by
  cases i with
  | draw | duty | rdly | waitd | waitms | ocrw | enset | dirset | pwmcfg | jmp =>
    simp [fieldOp, opcodeMatchMask, Instr.opcode]

/-- A word that passes a row's test has the row's format. -/
theorem hasFormat_of_matchesRow {w : Word} {i : Instr} (h : matchesRow w i = true) : HasFormat w i := by
  have hand : w &&& (opcodeMatchMask i).2 = (opcodeMatchMask i).1 := beq_iff_eq.1 h
  constructor
  · obtain ⟨hmask, hmatch⟩ := opcodeMatchMask_opcode i
    rw [← hmatch, ← hand, fieldOp_and, hmask, BitVec.and_allOnes]
  · intro f hf
    obtain ⟨hmask, hmatch⟩ := opcodeMatchMask_zeroField hf
    rw [← hmatch, ← hand, BitVec.extractLsb'_and, hmask, BitVec.and_allOnes]

/-- The operands of an operation do not count for its row. -/
theorem opcodeMatchMask_withFields (w : Word) (i : Instr) :
    opcodeMatchMask (i.withFields w) = opcodeMatchMask i := by
  cases i with
  | draw | duty | rdly | waitd | waitms | ocrw | enset | dirset | pwmcfg | jmp => rfl

theorem decodeWord_of_matchesRow {w : Word} {i : Instr} (h : matchesRow w i = true) :
    ∃ j, decodeWord w = .op j ∧ opcodeMatchMask j = opcodeMatchMask i :=
  ⟨_, (hasFormat_of_matchesRow h).decodeWord_eq, opcodeMatchMask_withFields w i⟩

theorem matchesRow_of_decodeWord {w : Word} {i : Instr} (h : decodeWord w = .op i) : matchesRow w i = true := by
  rw [← decodeWord_eq_op_iff.1 h]
  exact beq_iff_eq.2 (encode_and_mask i)

/-- Settles O2: decoding by the row's format, operand by operand; the two bytes make the word again. -/
theorem decodeOfEncode : Obligations.DecodeOfEncode := fun i rest =>
  ⟨decodeWord_encode i, (decode_wordBytes_append _ rest).trans (decodeWord_encode i)⟩

/-- Settles O3: a decoded word is its opcode, zeros and operands, which are all of its bits. -/
theorem encodeOfDecode : Obligations.EncodeOfDecode := fun _ _ => decodeWord_eq_op_iff.1

/-- Settles O4: passing a row's test is having its format. A word has at most one operation, so it passes at most
one row's test, and the words of an unassigned opcode, which have none, pass no test. -/
theorem opcodeMapMatches : Obligations.OpcodeMapMatches := by
  refine ⟨fun _ _ _ _ _ _ _ _ => rfl, fun w i => matchesRow_of_decodeWord, fun w i => decodeWord_of_matchesRow,
    fun w i j hi hj => ?_, fun w hw i => ?_⟩
  · obtain ⟨k, hk, hki⟩ := decodeWord_of_matchesRow hi
    obtain ⟨l, hl, hlj⟩ := decodeWord_of_matchesRow hj
    obtain rfl : k = l := Decoded.op.inj (hk.symm.trans hl)
    exact hki.symm.trans hlj
  · have hnone : ∀ j, decodeWord w ≠ .op j := by simp [decodeWord_of_unassigned (fieldOp_toNat w ▸ hw)]
    refine ⟨eq_false_of_ne_true fun h => ?_, hnone i⟩
    obtain ⟨j, hj, -⟩ := decodeWord_of_matchesRow h
    exact hnone j hj

end Sys2Proof

/-! ### Proofs about sound states -/

namespace Sys2Proof.Machine

/-! #### A sound state (R28, R31, R53, R54, R202) -/

/-- DLY changes only to the delay of a draw (R28, R148). -/
theorem exec_keeps_dly_or_derives {i : Instr} {s t : State} (h : exec i s = .next t) :
    t.dly = s.dly ∨ ∃ d, t.dly = delayOf d := by
  cases i with
  | rdly => cases h; exact .inr ⟨_, rfl⟩
  | draw | duty | waitd | waitms | ocrw | enset | dirset | pwmcfg | jmp => cases h; exact .inl rfl

@[simp] theorem ifRegValue_record (e : Event) (s : State) (r : IfReg) :
    ifRegValue (record e s) r = ifRegValue s r := by cases r <;> rfl

@[simp] theorem ifRegValue_raiseIllegalOp (w : Word) (s : State) (r : IfReg) :
    ifRegValue (raiseIllegalOp w s) r = ifRegValue s r := by cases r <;> rfl

/-- Events that are no writes, and registers that stay, leave the replay in agreement (R54, R142, R202). -/
theorem historyReplays_of_silent {s t : State} {es : List Event} (hs : HistoryReplays s)
    (hhist : t.history = s.history ++ es) (hquiet : ∀ r h, replay r (h ++ es) = replay r h)
    (hreg : ∀ r, ifRegValue t r = ifRegValue s r) : HistoryReplays t := by
  intro r
  rw [hhist, hquiet, hreg, hs r]

theorem exec_keeps_historyReplays {i : Instr} {s t : State} (h : exec i s = .next t) (hs : HistoryReplays s) :
    HistoryReplays t := by
  obtain ⟨hhist, hregs⟩ | ⟨r, v, hhist, hvalue, hothers⟩ := writesCarryWholeRegister i s t h
  · intro q
    rw [hhist, hregs, hs q]
  · intro q
    rw [hhist, replay_append_wr]
    split_ifs with hq
    · rw [← hq, hvalue]
    · rw [hothers q (Ne.symm hq), hs q]

/-- An operation's events are writes: none is a fault record. -/
theorem exec_history {i : Instr} {s t : State} (h : exec i s = .next t) :
    ∃ es, t.history = s.history ++ es ∧ es.length ≤ 1 ∧ ∀ e ∈ es, e.isFault = false := by
  obtain ⟨hhist, -⟩ | ⟨r, v, hhist, -, -⟩ := writesCarryWholeRegister i s t h
  · exact ⟨[], by simp [hhist], by simp, by simp⟩
  · exact ⟨[.wr r v], hhist, by simp, by simp [Event.isFault]⟩

/-- What keeps the fault record clear and records no fault keeps the two in agreement. -/
theorem faultRecordSound_of_unfaulted {s t : State} {es : List Event} (hs : FaultRecordSound s)
    (hsf : s.fault = false) (hf : t.fault = s.fault) (hc : t.fcause = s.fcause) (hw : t.fword = s.fword)
    (hhist : t.history = s.history ++ es) (hes : ∀ e ∈ es, e.isFault = false) : FaultRecordSound t := by
  obtain ⟨hcause, hword, hlog⟩ := hs.clear hsf
  have htf : ¬ t.fault = true := by simp [hf, hsf]
  exact
    { clear := fun _ => ⟨hc.trans hcause, hw.trans hword, by
        rw [hhist]
        exact List.forall_mem_append.2 ⟨hlog, hes⟩⟩
      cause := fun h => absurd h htf
      idle := fun h => absurd h htf
      word := fun h => absurd h htf
      logged := fun h => absurd h htf }

/-- The fault entry writes the record and the event of one fault, the first (R202). -/
theorem raiseIllegalOp_faultRecordSound {s : State} {why : IllegalReason} (hs : FaultRecordSound s)
    (hf : s.fault = false) (hw : s.wcnt = 0) (hd : decodeWord (fetchWord s) = .illegal why) :
    FaultRecordSound (raiseIllegalOp (fetchWord s) s) := by
  obtain ⟨-, -, hlog⟩ := hs.clear hf
  exact
    { clear := nofun
      cause := fun _ => rfl
      idle := fun _ => hw
      word := fun _ => ⟨rfl, why, hd⟩
      logged := fun _ => ⟨s.history, rfl, hlog⟩ }

/-- Settles O58: a tick and the fault entry each append one event that replays to nothing, and an operation appends
the write of the register it updates; only an operation changes DLY, to the delay of a draw. -/
theorem stepKeepsSound : Obligations.StepKeepsSound := by
  intro s t hs h
  have hrom : Memory.wf t.rom = true := (step_rom h).symm ▸ hs.rom
  obtain ⟨hf, ⟨-, rfl⟩ | ⟨-, i, -, hi⟩ | ⟨hw, ⟨why, hd⟩, rfl⟩⟩ := step_next_cases h
  · exact
      { rom := hrom
        delay := hs.delay
        record := faultRecordSound_of_unfaulted hs.record hf rfl rfl rfl rfl (by simp [Event.isFault])
        replays := historyReplays_of_silent hs.replays rfl replay_append_tick fun r => by simp }
  · obtain ⟨hfault, hcause, hword⟩ := exec_keeps_faultRecord hi
    obtain ⟨es, hhist, -, hes⟩ := exec_history hi
    refine
      { rom := hrom
        delay := ?_
        record := faultRecordSound_of_unfaulted hs.record hf hfault hcause hword hhist hes
        replays := exec_keeps_historyReplays hi hs.replays }
    obtain hdly | ⟨d, hdly⟩ := exec_keeps_dly_or_derives hi
    · exact hdly ▸ hs.delay
    · exact hdly ▸ delayOf_lt_maxDelayMs d
  · exact
      { rom := hrom
        delay := hs.delay
        record := raiseIllegalOp_faultRecordSound hs.record hf hw hd
        replays := historyReplays_of_silent hs.replays rfl (fun r => replay_append_fault r _ _)
          (ifRegValue_raiseIllegalOp _ s) }

end Sys2Proof.Machine

namespace Sys2Proof

/-! #### How many words are legal (R78) -/

/-- The words that decode to a family of operations are as many as the family has operands. -/
theorem card_words_of_family {α : Type} {f : α → Instr} (hf : Function.Injective f) :
    Nat.card { w : Word // ∃ a, decodeWord w = .op (f a) } = Nat.card α := by
  have hinj : Function.Injective (encode ∘ f) := fun a b hab => by
    have hdec : decodeWord (encode (f b)) = .op (f a) := decodeWord_eq_op_iff.2 hab
    exact hf (Decoded.op.inj (hdec.symm.trans (decodeWord_encode (f b))))
  rw [← Nat.card_range_of_injective hinj]
  simp only [decodeWord_eq_op_iff]
  rfl

/-- One word for each operation (R76). -/
theorem card_words_of_op (i : Instr) : Nat.card { w : Word // decodeWord w = .op i } = 1 := by
  have hone := card_words_of_family (f := fun _ : Unit => i) (Function.injective_of_subsingleton _)
  simpa using hone

theorem card_bitVec (n : Nat) : Nat.card (BitVec n) = 2 ^ n := by
  rw [Nat.card_congr BitVec.equivFin.toEquiv, Nat.card_fin]

/-- The two channels as a sum of two points. -/
def channelCases := proxy_equiv% Channel

/-- The ten operations as a sum of their operands' types. -/
def instrCases := proxy_equiv% Instr

theorem card_channel : Nat.card Channel = 2 := by
  rw [← Nat.card_congr channelCases]
  simp

theorem card_channel_sigma (α : Type) : Nat.card ((_ : Channel) × α) = 2 * Nat.card α := by
  rw [Nat.card_congr (Equiv.sigmaEquivProd Channel α), Nat.card_prod, card_channel]

/-- So are those of a family with a channel and one more operand. -/
theorem card_words_of_channel_family {α : Type} {f : Channel → α → Instr} (hf : Function.Injective2 f) :
    Nat.card { w : Word // ∃ c a, decodeWord w = .op (f c a) } = 2 * Nat.card α := by
  rw [← card_channel, ← Nat.card_prod, ← card_words_of_family hf.uncurry]
  simp only [Prod.exists, Function.uncurry]

/-- The ten operations with all their operands: 1 + 2 + 1 + 1 + 4096 + 512 + 4 + 4 + 1 + 256. -/
theorem card_instr : Nat.card Instr = 4878 := by
  have hfin : Finite Channel := Finite.of_equiv _ channelCases
  have hbool : Nat.card Bool = 2 := by simp
  rw [← Nat.card_congr instrCases]
  simp only [Nat.card_sum, Nat.card_unique, card_channel_sigma, card_bitVec, card_channel, hbool]
  norm_num

theorem card_legal_words : Nat.card { w : Word // ∃ i, decodeWord w = .op i } = 4878 :=
  (card_words_of_family Function.injective_id).trans card_instr

/-- A word that spells no operation is ILLEGAL. -/
theorem decodeWord_illegal_iff {w : Word} :
    (∃ why, decodeWord w = .illegal why) ↔ ¬ ∃ i, decodeWord w = .op i := by
  cases decodeWord w <;> simp

theorem card_illegal_words : Nat.card { w : Word // ∃ why, decodeWord w = .illegal why } = 60658 := by
  have hsum := Set.ncard_add_ncard_compl { w : Word | ∃ i, decodeWord w = .op i }
  have hlegal : Set.ncard { w : Word | ∃ i, decodeWord w = .op i } = 4878 := card_legal_words
  rw [hlegal, card_bitVec, Set.compl_ofPred] at hsum
  simp only [decodeWord_illegal_iff]
  exact Nat.add_left_cancel hsum

/-- Settles O7: each operation has one word, so the words of a row are its operands; the rest of 2^16 is ILLEGAL. -/
theorem legalWordCount : Obligations.LegalWordCount := by
  refine ⟨card_legal_words, card_illegal_words, card_words_of_op _, ?_, card_words_of_op _,
    card_words_of_op _, ?_, ?_, ?_, ?_, card_words_of_op _, ?_⟩
  · exact (card_words_of_family fun c d h => Instr.duty.inj h).trans card_channel
  · exact (card_words_of_family fun m n h => Instr.waitms.inj h).trans (card_bitVec 12)
  · exact (card_words_of_channel_family fun _ _ _ _ h => Instr.ocrw.inj h).trans (congrArg (2 * ·) (card_bitVec 8))
  · exact (card_words_of_channel_family fun _ _ _ _ h => Instr.enset.inj h).trans (by simp)
  · exact (card_words_of_family fun m n h => Instr.dirset.inj h).trans (card_bitVec 2)
  · exact (card_words_of_family fun t u h => Instr.jmp.inj h).trans (card_bitVec 8)

end Sys2Proof

/-! ### Proofs about the shift register and its period (40_prg.md sections 2 and 3) -/

namespace Sys2Proof.Machine

/-! #### The shift register without its guard (R105) -/

/-- R105's left-shifting register, before the guard is put in front of it. -/
def shiftRegister (g : Word) : Word := (g.extractLsb' 0 15).concat (lfsrFb g)

theorem lfsrFb_eq_xor (g : Word) :
    lfsrFb g = (g.getLsbD 15 ^^ g.getLsbD 14 ^^ g.getLsbD 12 ^^ g.getLsbD 3) := by
  simp [lfsrFb, Config.lfsrTaps]

theorem lfsrShiftRegister_eq (s : Word) : lfsrShiftRegister s = shiftRegister (lfsrGuard s) := by
  rw [shiftRegister, lfsrFb_eq_xor]
  rfl

/-- Shifting left drops bit 15, so the sum modulo 2^16 is the lower bits with the feedback bit below them. -/
theorem lfsrNext_eq_shiftRegister (s : Word) : lfsrNext s = shiftRegister (lfsrGuard s) := by
  apply BitVec.eq_of_toNat_eq
  rw [lfsrNext_toNat, shiftRegister, BitVec.concat, append_toNat, BitVec.extractLsb'_toNat, BitVec.toNat_ofBool]
  have hbit := (lfsrFb (lfsrGuard s)).toNat_lt
  simp only [Nat.shiftRight_zero]
  omega

/-- The shifted state's bit 0 is 0, so adding the feedback bit carries nothing (R104). -/
theorem lfsrNext_eq_or (s : Word) :
    lfsrNext s = (lfsrGuard s <<< 1) ||| (BitVec.ofBool (lfsrFb (lfsrGuard s))).setWidth 16 := by
  apply BitVec.add_eq_or_of_and_eq_zero
  ext i hi
  cases i with
  | zero => simp
  | succ i => simp [BitVec.getElem_setWidth]

/-- Settles O11: the sum's two summands have no bit in common, and modulo 2^16 it is the shifted register. -/
theorem lfsrIsShiftRegister : Obligations.LfsrIsShiftRegister := fun s =>
  ⟨(lfsrNext_eq_shiftRegister s).trans (lfsrShiftRegister_eq s).symm, lfsrNext_eq_or s⟩

/-! #### Stepping back (R106, R107) -/

/-- The register's inverse: shift right, and recover bit 15 from the feedback bit and its other taps. -/
def shiftBack (v : Word) : Word :=
  (v.extractLsb' 1 15).cons (v.getLsbD 0 ^^ v.getLsbD 15 ^^ v.getLsbD 13 ^^ v.getLsbD 4)

theorem shiftRegister_getLsbD_zero (g : Word) : (shiftRegister g).getLsbD 0 = lfsrFb g :=
  BitVec.getLsbD_concat_zero

theorem shiftRegister_getLsbD_succ (g : Word) {k : Nat} (hk : k < 15) :
    (shiftRegister g).getLsbD (k + 1) = g.getLsbD k :=
  BitVec.getLsbD_concat_succ.trans (by simp [hk])

theorem shiftBack_getLsbD (v : Word) {k : Nat} (hk : k < 15) : (shiftBack v).getLsbD k = v.getLsbD (k + 1) :=
  (BitVec.getLsbD_cons ..).trans (by simp [hk, hk.ne, Nat.add_comm])

theorem shiftBack_getLsbD_top (v : Word) : (shiftBack v).getLsbD 15 =
    (v.getLsbD 0 ^^ v.getLsbD 15 ^^ v.getLsbD 13 ^^ v.getLsbD 4) :=
  (BitVec.getLsbD_cons ..).trans (if_pos rfl)

theorem xor_taps_cancel (a b c d : Bool) : ((a ^^ b ^^ c ^^ d) ^^ b ^^ c ^^ d) = a := by
  revert a b c d
  decide

theorem shiftBack_shiftRegister (g : Word) : shiftBack (shiftRegister g) = g := by
  apply BitVec.eq_of_getLsbD_eq
  intro k hk
  obtain hlow | rfl : k < 15 ∨ k = 15 := by omega
  · rw [shiftBack_getLsbD _ hlow, shiftRegister_getLsbD_succ g hlow]
  · rw [shiftBack_getLsbD_top, shiftRegister_getLsbD_zero, shiftRegister_getLsbD_succ g (by decide : 14 < 15),
      shiftRegister_getLsbD_succ g (by decide : 12 < 15), shiftRegister_getLsbD_succ g (by decide : 3 < 15),
      lfsrFb_eq_xor, xor_taps_cancel]

theorem shiftRegister_shiftBack (v : Word) : shiftRegister (shiftBack v) = v := by
  apply BitVec.eq_of_getLsbD_eq
  intro k hk
  cases k with
  | zero =>
    rw [shiftRegister_getLsbD_zero, lfsrFb_eq_xor, shiftBack_getLsbD_top, shiftBack_getLsbD v (by decide : 14 < 15),
      shiftBack_getLsbD v (by decide : 12 < 15), shiftBack_getLsbD v (by decide : 3 < 15), xor_taps_cancel]
  | succ k =>
    have hlow : k < 15 := by omega
    rw [shiftRegister_getLsbD_succ _ hlow, shiftBack_getLsbD v hlow]

/-- The guarded state a step came from is the register run backwards. -/
theorem lfsrNext_eq_iff {s v : Word} : lfsrNext s = v ↔ lfsrGuard s = shiftBack v := by
  rw [lfsrNext_eq_shiftRegister]
  exact ⟨fun h => h ▸ (shiftBack_shiftRegister _).symm, fun h => h ▸ shiftRegister_shiftBack v⟩

theorem lfsrGuard_zero : lfsrGuard 0 = 1 := rfl

theorem lfsrGuard_of_ne_zero {s : Word} (hs : s ≠ 0) : lfsrGuard s = s := if_neg hs

theorem lfsrGuard_eq_iff {s g : Word} (hg : g ≠ 1) : lfsrGuard s = g ↔ s = g ∧ s ≠ 0 := by
  obtain rfl | hs := eq_or_ne s 0
  · exact ⟨fun h => absurd h.symm hg, fun h => absurd rfl h.2⟩
  · rw [lfsrGuard_of_ne_zero hs, and_iff_left hs]

theorem lfsrGuard_eq_one_iff {s : Word} : lfsrGuard s = 1 ↔ s = 0 ∨ s = 1 := by
  obtain rfl | hs := eq_or_ne s 0
  · exact iff_of_true lfsrGuard_zero (.inl rfl)
  · rw [lfsrGuard_of_ne_zero hs, or_iff_right hs]

theorem lfsrGuard_ne_zero (s : Word) : lfsrGuard s ≠ 0 := by
  intro h
  obtain ⟨hs, hne⟩ := (lfsrGuard_eq_iff (by decide)).1 h
  exact hne hs

theorem lfsrNext_ne_zero (s : Word) : lfsrNext s ≠ 0 := fun h => lfsrGuard_ne_zero s (lfsrNext_eq_iff.1 h)

/-- Settles O12: the register is a bijection whose inverse is `shiftBack`, and the guard maps 0 and 1 to one state; so
a value's predecessors are the states that the guard takes to its `shiftBack`. -/
theorem lfsrPredecessors : Obligations.LfsrPredecessors := by
  refine ⟨lfsrNext_ne_zero, fun s => lfsrNext_eq_iff.trans lfsrGuard_eq_one_iff, fun v hv0 hv2 => ?_⟩
  have hback {g : Word} (h : shiftBack v = g) : v = shiftRegister g := h ▸ (shiftRegister_shiftBack v).symm
  have hne0 : shiftBack v ≠ 0 := fun h => hv0 (hback h)
  have hne1 : shiftBack v ≠ 1 := fun h => hv2 (hback h)
  have hiff (s : Word) : lfsrNext s = v ↔ s = shiftBack v ∧ s ≠ 0 := lfsrNext_eq_iff.trans (lfsrGuard_eq_iff hne1)
  exact ⟨shiftBack v, (hiff _).2 ⟨rfl, hne0⟩, fun s hs => ((hiff s).1 hs).1⟩

end Sys2Proof.Machine

namespace Sys2Proof.Machine

/-! #### Many steps of the register at once

The register is linear over exclusive-or, so a power of it is known by its columns, and squaring a power squares
its columns: 65 535 steps are 16 squarings. -/

/-- The columns of a linear map added up where a word has a 1. -/
def columnSum : List Word → Word → Word
  | [], _ => 0
  | c :: cols, x => (bif x.getLsbD 0 then c else 0) ^^^ columnSum cols (x >>> 1)

/-- A map that commutes with exclusive-or. -/
def XorLinear (f : Word → Word) : Prop := ∀ x y, f (x ^^^ y) = f x ^^^ f y

theorem XorLinear.map_zero {f : Word → Word} (hf : XorLinear f) : f 0 = 0 := by
  have h := hf 0 0
  rwa [BitVec.xor_self, BitVec.xor_self] at h

theorem columnSum_xorLinear (cols : List Word) : XorLinear (columnSum cols) := by
  intro x y
  induction cols generalizing x y with
  | nil => exact BitVec.xor_self.symm
  | cons c cols ih =>
    have hbit (a b : Bool) : (bif a ^^ b then c else 0) = (bif a then c else 0) ^^^ (bif b then c else 0) := by
      cases a <;> cases b <;> simp
    simp only [columnSum, BitVec.ushiftRight_xor_distrib, ih, BitVec.getLsbD_xor, hbit]
    ac_rfl

/-- A linear map of each column is the linear map of their sum. -/
theorem columnSum_map {f : Word → Word} (hf : XorLinear f) (cols : List Word) (x : Word) :
    columnSum (cols.map f) x = f (columnSum cols x) := by
  induction cols generalizing x with
  | nil => exact hf.map_zero.symm
  | cons c cols ih =>
    rw [List.map_cons, columnSum, columnSum, ih, hf]
    cases x.getLsbD 0
    · exact congrArg (· ^^^ f (columnSum cols (x >>> 1))) hf.map_zero.symm
    · rfl

/-- The words with a single 1. -/
def unitWords : List Word := (List.range 16).map ((1 : Word) <<< ·)

/-- A word is its bit 0 and the bits above. -/
theorem bit_xor_shift (x : Word) : (bif x.getLsbD 0 then (1 : Word) else 0) ^^^ (x >>> 1 <<< 1) = x := by
  ext i hi
  cases i with
  | zero => cases h : x[0] <;> simp [h]
  | succ i => cases h : x[0] <;> simp [h, Nat.add_comm 1 i, BitVec.getLsbD_eq_getElem hi]

theorem columnSum_unitWords_from (n k : Nat) (x : Word) (hx : x >>> n = 0) :
    columnSum ((List.range' k n).map ((1 : Word) <<< ·)) x = x <<< k := by
  induction n generalizing k x with
  | zero =>
    obtain rfl : x = 0 := hx
    exact (BitVec.zero_shiftLeft k).symm
  | succ n ih =>
    have hrest : (x >>> 1) >>> n = 0 := by rw [← BitVec.shiftRight_add, Nat.add_comm, hx]
    have hbit : (bif x.getLsbD 0 then (1 : Word) <<< k else 0) = (bif x.getLsbD 0 then (1 : Word) else 0) <<< k := by
      cases x.getLsbD 0 <;> simp
    rw [List.range'_succ, List.map_cons, columnSum, ih (k + 1) _ hrest, hbit, Nat.add_comm k 1, BitVec.shiftLeft_add,
      ← BitVec.shiftLeft_xor_distrib, bit_xor_shift]

theorem columnSum_unitWords (x : Word) : columnSum unitWords x = x := by
  rw [unitWords, List.range_eq_range', columnSum_unitWords_from 16 0 x (BitVec.ushiftRight_eq_zero (Nat.le_refl 16)),
    BitVec.shiftLeft_zero]

theorem columnSum_of_xorLinear {f : Word → Word} (hf : XorLinear f) : columnSum (unitWords.map f) = f := by
  funext x
  rw [columnSum_map hf, columnSum_unitWords]

/-- n steps of the map with the given columns, for n below 2^k: the columns are squared k times. -/
def columnPow : Nat → List Word → Nat → Word → Word
  | 0, _, _, x => x
  | k + 1, cols, n, x => columnPow k (cols.map (columnSum cols)) (n / 2) (if n % 2 = 1 then columnSum cols x else x)

theorem columnPow_eq_iterate {k n : Nat} (hn : n < 2 ^ k) (cols : List Word) (x : Word) :
    columnPow k cols n x = (columnSum cols)^[n] x := by
  induction k generalizing cols n x with
  | zero =>
    obtain rfl : n = 0 := by omega
    rfl
  | succ k ih =>
    have hsquare : columnSum (cols.map (columnSum cols)) = (columnSum cols)^[2] :=
      funext (columnSum_map (columnSum_xorLinear cols) cols)
    have hbit : (if n % 2 = 1 then columnSum cols x else x) = (columnSum cols)^[n % 2] x := by
      obtain h | h := Nat.mod_two_eq_zero_or_one n <;> simp [h]
    rw [columnPow, ih (by omega), hsquare, hbit, ← Function.iterate_mul, ← Function.iterate_add_apply, Nat.div_add_mod]

theorem shiftRegister_xorLinear : XorLinear shiftRegister := by
  intro x y
  apply BitVec.eq_of_getLsbD_eq
  intro k hk
  cases k with
  | zero =>
    simp only [shiftRegister_getLsbD_zero, lfsrFb_eq_xor, BitVec.getLsbD_xor, Bool.xor_assoc, Bool.xor_comm,
      Bool.xor_left_comm]
  | succ k =>
    have hlow : k < 15 := by omega
    simp only [BitVec.getLsbD_xor, shiftRegister_getLsbD_succ _ hlow]

theorem iterate_shiftRegister {n : Nat} (hn : n < 2 ^ 16) (x : Word) :
    shiftRegister^[n] x = columnPow 16 (unitWords.map shiftRegister) n x := by
  rw [columnPow_eq_iterate hn, columnSum_of_xorLinear shiftRegister_xorLinear]

/-! #### The period (R107) -/

theorem drawn_eq_iterate (n : Nat) (s : Word) : drawn n s = lfsrNext^[n] s := by
  induction n generalizing s with
  | zero => rfl
  | succ n ih => rw [drawn, ih, Function.iterate_succ_apply]

/-- The guard has no effect on a run from a non-zero state, which stays non-zero. -/
theorem iterate_lfsrNext_of_ne_zero {s : Word} (hs : s ≠ 0) (n : Nat) : lfsrNext^[n] s = shiftRegister^[n] s := by
  induction n generalizing s with
  | zero => rfl
  | succ n ih =>
    rw [Function.iterate_succ_apply, ih (lfsrNext_ne_zero s), lfsrNext_eq_shiftRegister, lfsrGuard_of_ne_zero hs,
      Function.iterate_succ_apply]

theorem iterate_lfsrNext_ne_zero {s : Word} (hs : s ≠ 0) (n : Nat) : lfsrNext^[n] s ≠ 0 := by
  cases n with
  | zero => exact hs
  | succ n =>
    rw [Function.iterate_succ_apply']
    exact lfsrNext_ne_zero _

/-- Whether n draws return to 1, as one evaluation of 16 squarings. -/
theorem isPeriodicPt_one_iff {n : Nat} (hn : n < 2 ^ 16) :
    Function.IsPeriodicPt lfsrNext n 1 ↔ columnPow 16 (unitWords.map shiftRegister) n 1 = 1 := by
  rw [Function.IsPeriodicPt, Function.IsFixedPt, iterate_lfsrNext_of_ne_zero (by decide), iterate_shiftRegister hn]

/-- A number of steps that return is the period when no prime factor of it can be left out. -/
theorem minimalPeriod_eq_of_div_prime {α : Type} {f : α → α} {x : α} {n : Nat}
    (hper : Function.IsPeriodicPt f n x)
    (hdiv : ∀ p, p.Prime → p ∣ n → ¬ Function.IsPeriodicPt f (n / p) x) : Function.minimalPeriod f x = n := by
  obtain ⟨e, he⟩ := hper.minimalPeriod_dvd
  by_contra hne
  have he1 : e ≠ 1 := by
    rintro rfl
    exact hne (by omega)
  obtain ⟨p, hp, q, rfl⟩ := Nat.exists_prime_and_dvd he1
  have hn' : n = p * (Function.minimalPeriod f x * q) := by rw [he]; ring
  refine hdiv p hp ⟨_, hn'⟩ (Function.isPeriodicPt_iff_minimalPeriod_dvd.2 ?_)
  rw [Nat.div_eq_of_eq_mul_right hp.pos hn']
  exact dvd_mul_right _ _

/-- The prime factors of the period: 65 535 = 3 · 5 · 17 · 257. -/
theorem prime_dvd_period {p : Nat} (hp : p.Prime) (hdvd : p ∣ 65535) : p = 3 ∨ p = 5 ∨ p = 17 ∨ p = 257 := by
  have heq {q : Nat} (hq : q.Prime) : p ∣ q → p = q := (Nat.prime_dvd_prime_iff_eq hp hq).1
  have hfactor : p ∣ 3 * (5 * (17 * 257)) := hdvd
  simp only [hp.dvd_mul] at hfactor
  exact hfactor.imp (heq (by norm_num)) (Or.imp (heq (by norm_num)) (Or.imp (heq (by norm_num)) (heq (by norm_num))))

theorem minimalPeriod_one : Function.minimalPeriod lfsrNext 1 = 65535 := by
  refine minimalPeriod_eq_of_div_prime ((isPeriodicPt_one_iff (by decide)).2 (by decide +kernel))
    fun p hp hdvd => ?_
  obtain rfl | rfl | rfl | rfl := prime_dvd_period hp hdvd
  all_goals
    rw [isPeriodicPt_one_iff (by decide)]
    decide +kernel

theorem card_nonzero_words : ((Finset.univ : Finset Word).erase 0).card = 65535 := by
  rw [Finset.card_erase_of_mem (Finset.mem_univ 0), Finset.card_univ, ← Nat.card_eq_fintype_card, card_bitVec]
  rfl

/-- An orbit of as many words as are not 0 has every one of them. -/
theorem exists_iterate_of_minimalPeriod {s : Word} (hs : s ≠ 0) (hper : Function.minimalPeriod lfsrNext s = 65535)
    {v : Word} (hv : v ≠ 0) : ∃ n < 65535, lfsrNext^[n] s = v := by
  have hinj : Set.InjOn (fun n => lfsrNext^[n] s) (Finset.range 65535) := by
    rw [← hper]
    simpa using Function.iterate_injOn_Iio_minimalPeriod
  have hsub : (Finset.range 65535).image (fun n => lfsrNext^[n] s) ⊆ Finset.univ.erase 0 := by
    intro v hv
    obtain ⟨n, -, rfl⟩ := Finset.mem_image.1 hv
    exact Finset.mem_erase.2 ⟨iterate_lfsrNext_ne_zero hs n, Finset.mem_univ _⟩
  have heq := Finset.eq_of_subset_of_card_le hsub (by
    rw [card_nonzero_words, Finset.card_image_of_injOn hinj, Finset.card_range])
  have hmem : v ∈ (Finset.range 65535).image (fun n => lfsrNext^[n] s) :=
    heq ▸ Finset.mem_erase.2 ⟨hv, Finset.mem_univ v⟩
  simpa using hmem

theorem minimalPeriod_of_ne_zero {s : Word} (hs : s ≠ 0) : Function.minimalPeriod lfsrNext s = 65535 := by
  obtain ⟨n, -, rfl⟩ := exists_iterate_of_minimalPeriod (by decide) minimalPeriod_one hs
  rw [Function.minimalPeriod_apply_iterate ?_ n, minimalPeriod_one]
  exact Function.minimalPeriod_pos_iff_mem_periodicPts.1 (minimalPeriod_one ▸ by decide)

/-- Settles O13: 1 has period 65 535, so its orbit is every non-zero word, and each of these has the same period and
the same orbit. -/
theorem lfsrMaximalPeriod : Obligations.LfsrMaximalPeriod := by
  intro s hs
  have hper := minimalPeriod_of_ne_zero hs
  simp only [drawn_eq_iterate]
  refine ⟨fun n => ?_, fun v hv => exists_iterate_of_minimalPeriod hs hper hv⟩
  rw [← hper]
  exact Function.isPeriodicPt_iff_minimalPeriod_dvd

theorem lfsrNext_ne_self {s : Word} (hs : s ≠ 0) : lfsrNext s ≠ s := by
  intro h
  have hdvd := ((lfsrMaximalPeriod s hs).1 1).1 h
  omega

end Sys2Proof.Machine

namespace Sys2Proof.Machine

/-! #### Which operations draw, and what a draw does (R100, R109, R110) -/

theorem draws_iff {i : Instr} : Draws i = true ↔ i = .draw ∨ (∃ c, i = .duty c) ∨ i = .rdly := by
  cases i <;> simp [Draws]

/-- The LFSR after an operation: one draw, or none. -/
theorem exec_lfsr {i : Instr} {s t : State} (h : exec i s = .next t) :
    t.lfsr = if Draws i then lfsrNext s.lfsr else s.lfsr := by
  cases i with
  | draw | duty | rdly | waitd | waitms | ocrw | enset | dirset | pwmcfg | jmp => cases h; rfl

theorem exec_lfsr_of_draws {i : Instr} {s t : State} (hi : Draws i = true) (h : exec i s = .next t) :
    t.lfsr = lfsrNext s.lfsr := by
  rw [exec_lfsr h, if_pos hi]

@[simp] theorem tickStep_lfsr (s : State) : (tickStep s).lfsr = s.lfsr := by
  by_cases hw : s.wcnt = 0
  · rw [tickStep_idle hw]
  · rw [tickStep_busy hw, record_lfsr, setWcnt_lfsr]

/-- A step draws when it executes a drawing operation. -/
theorem stepDraws_iff {s : State} : stepDraws s = true ↔
    phase s = .ready ∧ ∃ i, decodeWord (fetchWord s) = .op i ∧ Draws i = true := by
  by_cases hp : phase s = .ready
  · cases hd : decodeWord (fetchWord s) with
    | op i => simp [stepDraws_ready hp hd, hp]
    | illegal why => simp [stepDraws_illegal hd]
  · simp [stepDraws_not_ready hp, hp]

/-- The LFSR after a step: as many draws as the step makes. -/
theorem step_lfsr {s t : State} (h : step s = .next t) :
    t.lfsr = drawn (if stepDraws s then 1 else 0) s.lfsr := by
  obtain ⟨hf, ⟨hw, rfl⟩ | ⟨hw, i, hd, hi⟩ | ⟨-, ⟨why, hd⟩, rfl⟩⟩ := step_next_cases h
  · have hp : phase s ≠ .ready := fun hp => hw (phase_eq_ready.1 hp).2
    rw [stepDraws_not_ready hp]
    rfl
  · rw [stepDraws_ready (phase_eq_ready.2 ⟨hf, hw⟩) hd, exec_lfsr hi]
    cases Draws i <;> rfl
  · rw [stepDraws_illegal hd]
    rfl

/-- The LFSR after a run: as many draws as the run makes. -/
theorem run_lfsr {n : Nat} {s t : State} (h : run n s = .next t) : t.lfsr = drawn (drawCount n s) s.lfsr := by
  induction n generalizing s with
  | zero =>
    cases h
    rfl
  | succ n ih =>
    obtain ⟨u, hu, hrun⟩ := run_succ_eq_next h
    rw [ih hrun, step_lfsr hu, drawCount_succ_next n hu, drawn_add]

/-- Settles O15: one step draws once or not at all, so a run draws as often as its steps do. -/
theorem lfsrDependsOnDrawCountOnly : Obligations.LfsrDependsOnDrawCountOnly := by
  refine ⟨fun i => draws_iff, fun i s t => exec_lfsr, tickStep_lfsr, fun w s => raiseIllegalOp_lfsr s w,
    fun s => stepDraws_iff, fun n s t => run_lfsr, fun n n' s s' t t' h h' hlfsr hcount => ?_⟩
  rw [run_lfsr h, run_lfsr h', hlfsr, hcount]

theorem step_keeps_lfsr_ne_zero {s t : State} (h : step s = .next t) (hs : s.lfsr ≠ 0) : t.lfsr ≠ 0 := by
  rw [step_lfsr h, drawn_eq_iterate]
  exact iterate_lfsrNext_ne_zero hs _

/-- Settles O14: a draw is never 0, and the register moves every value that is not 0. -/
theorem drawsAreNonzeroAndDistinct : Obligations.DrawsAreNonzeroAndDistinct := by
  have hdraw {i : Instr} {s t : State} (hi : Draws i = true) (h : exec i s = .next t) : t.lfsr ≠ 0 :=
    exec_lfsr_of_draws hi h ▸ lfsrNext_ne_zero s.lfsr
  refine ⟨fun i s t => hdraw, fun s t => step_keeps_lfsr_ne_zero, fun i j s t u hi hj hexec hexec' => ?_⟩
  rw [exec_lfsr_of_draws hj hexec']
  exact lfsrNext_ne_self (hdraw hi hexec)

/-! #### A zero LFSR and a one (R101, R232) -/

/-- An operation that draws reads the LFSR through the draw alone. -/
theorem exec_setLfsr_of_draws {i : Instr} {s : State} {v : Word} (hi : Draws i = true)
    (hv : lfsrNext v = lfsrNext s.lfsr) : exec i (setLfsr v s) = exec i s := by
  obtain rfl | ⟨c, rfl⟩ | rfl := draws_iff.1 hi
  · simp only [exec_draw, draw, setLfsr_lfsr, hv]
    rfl
  · simp only [exec_duty, draw, setLfsr_lfsr, hv]
    rfl
  · simp only [exec_rdly, draw, setLfsr_lfsr, hv]
    rfl

/-- An operation that draws nothing carries any LFSR along. -/
theorem exec_setLfsr_of_not_draws {i : Instr} {s t : State} (v : Word) (hi : Draws i = false)
    (h : exec i s = .next t) : exec i (setLfsr v s) = .next (setLfsr v t) := by
  cases i with
  | draw | duty | rdly => cases hi
  | waitd | waitms | ocrw | enset | dirset | pwmcfg | jmp => cases h; rfl

theorem step_setLfsr {s t : State} {v : Word} (hv : lfsrNext v = lfsrNext s.lfsr) (h : step s = .next t) :
    step (setLfsr v s) = .next (if stepDraws s then t else setLfsr v t) := by
  obtain ⟨hf, ⟨hw, rfl⟩ | ⟨hw, i, hd, hi⟩ | ⟨hw, ⟨why, hd⟩, rfl⟩⟩ := step_next_cases h
  · have hp : phase s ≠ .ready := fun hp => hw (phase_eq_ready.1 hp).2
    have hstep : step (setLfsr v s) = .next (tickStep (setLfsr v s)) := step_of_waiting hf hw
    rw [stepDraws_not_ready hp, hstep, tickStep_busy (s := setLfsr v s) hw]
    rfl
  · have hp : phase s = .ready := phase_eq_ready.2 ⟨hf, hw⟩
    have hstep : step (setLfsr v s) = exec i (setLfsr v s) := step_of_ready_op (s := setLfsr v s) hp hd
    rw [stepDraws_ready hp hd, hstep]
    cases hdraw : Draws i with
    | true => rw [exec_setLfsr_of_draws hdraw hv, hi, if_pos rfl]
    | false => exact exec_setLfsr_of_not_draws v hdraw hi
  · have hp : phase s = .ready := phase_eq_ready.2 ⟨hf, hw⟩
    rw [stepDraws_illegal hd]
    exact step_of_ready_illegal (s := setLfsr v s) hp hd

/-- Two states, the second with LFSR 1 for the first's 0, or one state with a non-zero LFSR. -/
def ZeroOneRelated (t u : State) : Prop :=
  (t = u ∧ t.lfsr ≠ 0) ∨ (t.lfsr = 0 ∧ u = setLfsr 1 t)

theorem step_zeroOneRelated {s s' t : State} (hrel : ZeroOneRelated s s') (h : step s = .next t) :
    ∃ u, step s' = .next u ∧ ZeroOneRelated t u := by
  obtain ⟨rfl, hne⟩ | ⟨hzero, rfl⟩ := hrel
  · exact ⟨t, h, .inl ⟨rfl, step_keeps_lfsr_ne_zero h hne⟩⟩
  · have hv : lfsrNext 1 = lfsrNext s.lfsr := hzero ▸ rfl
    refine ⟨_, step_setLfsr hv h, ?_⟩
    have hlfsr := step_lfsr h
    cases hdraw : stepDraws s with
    | true =>
      rw [hdraw] at hlfsr
      exact .inl ⟨rfl, hlfsr ▸ lfsrNext_ne_zero s.lfsr⟩
    | false =>
      rw [hdraw] at hlfsr
      exact .inr ⟨hlfsr.trans hzero, rfl⟩

theorem run_zeroOneRelated {n : Nat} {s s' t : State} (hrel : ZeroOneRelated s s') (h : run n s = .next t) :
    ∃ u, run n s' = .next u ∧ ZeroOneRelated t u := by
  induction n generalizing s s' with
  | zero =>
    cases h
    exact ⟨s', rfl, hrel⟩
  | succ n ih =>
    obtain ⟨v, hv, hrun⟩ := run_succ_eq_next h
    obtain ⟨v', hv', hrel'⟩ := step_zeroOneRelated hrel hv
    rw [run_succ_next n hv']
    exact ih hrel' hrun

/-- Settles O16: the guard makes 0 and 1 draw one value, and the LFSR is read by draws alone. -/
theorem zeroSeedRunsAsOne : Obligations.ZeroSeedRunsAsOne :=
  fun _ s _ h => run_zeroOneRelated (s := setLfsr 0 s) (.inr ⟨rfl, rfl⟩) h

end Sys2Proof.Machine

/-! ### Proofs about duties and delays (41_reduce.md) -/

namespace Sys2Proof.Machine

/-! #### The duty's range and the folding circuit (R121, R123) -/

theorem dutyOf_range (d : Word) : 50 ≤ (dutyOf d).toNat ∧ (dutyOf d).toNat ≤ 254 := by
  rw [dutyOf_toNat]
  split_ifs <;> omega

/-- A duty value in range is the duty of itself. -/
theorem dutyOf_setWidth {v : Byte} (h50 : 50 ≤ v.toNat) (h254 : v.toNat ≤ 254) : dutyOf (v.setWidth 16) = v := by
  apply BitVec.eq_of_toNat_eq
  rw [dutyOf_toNat, BitVec.toNat_setWidth_of_le (by decide), Nat.mod_eq_of_lt (by omega), if_neg (by omega)]

/-- Settles O18: the floor and the modulus bound every duty, and each value in range is its own duty. -/
theorem dutyRange : Obligations.DutyRange := fun _ =>
  ⟨fun ⟨d, hd⟩ => hd ▸ dutyOf_range d, fun ⟨h50, h254⟩ => ⟨_, dutyOf_setWidth h50 h254⟩⟩

/-- A 9-bit adder of two fields of at most 8 bits that cannot carry out. -/
theorem setWidth_add_toNat {m n : Nat} (a : BitVec m) (b : BitVec n) (hm : m ≤ 8) (hn : n ≤ 8) :
    (a.setWidth 9 + b.setWidth 9).toNat = a.toNat + b.toNat := by
  have ha : a.toNat < 2 ^ 8 := a.isLt.trans_le (Nat.pow_le_pow_right (by decide) hm)
  have hb : b.toNat < 2 ^ 8 := b.isLt.trans_le (Nat.pow_le_pow_right (by decide) hn)
  rw [BitVec.toNat_add, BitVec.toNat_setWidth_of_le (by omega), BitVec.toNat_setWidth_of_le (by omega)]
  omega

/-- Settles O19: 256 is 1 modulo 255, so a draw is congruent to the sum of its bytes, and that sum, at most 510, to
its low byte plus its carry. -/
theorem foldingComputesResidue : Obligations.FoldingComputesResidue := by
  intro d
  have hd : d.toNat < 65536 := d.isLt
  unfold residueByFolding
  extract_lets t u
  have ht : t.toNat = d.toNat / 256 + d.toNat % 256 := by
    rw [setWidth_add_toNat _ _ (le_refl 8) (le_refl 8)]
    simp only [BitVec.extractLsb'_toNat, Nat.shiftRight_eq_div_pow]
    omega
  have hu : u.toNat = t.toNat % 256 + t.toNat / 256 := by
    rw [setWidth_add_toNat _ _ (le_refl 8) (by decide)]
    simp only [BitVec.extractLsb'_toNat, Nat.shiftRight_eq_div_pow]
    omega
  split_ifs with h255
  · have hval : u.toNat = 255 := congrArg BitVec.toNat h255
    change 0 = _
    omega
  · have hval : u.toNat ≠ 255 := fun h => h255 (BitVec.eq_of_toNat_eq h)
    rw [BitVec.extractLsb'_toNat, Nat.shiftRight_zero]
    omega

/-! #### The distribution of draws (R126) -/

section Count
variable (p : Nat → Prop) [DecidablePred p]

theorem card_words_eq_count : Nat.card { d : Word // p d.toNat } = Nat.count p 65536 := by
  let _ := Nat.CountSet.fintype p 65536
  rw [Nat.count_eq_card_fintype, ← Nat.card_eq_fintype_card]
  refine Nat.card_eq_of_bijective (fun d => ⟨d.1.toNat, d.1.isLt, d.2⟩) ⟨fun d e h => ?_, fun k => ?_⟩
  · exact Subtype.ext (BitVec.eq_of_toNat_eq (congrArg Subtype.val h))
  · obtain ⟨k, hk, hp⟩ := k
    have hval : (BitVec.ofNat 16 k).toNat = k := (BitVec.toNat_ofNat k 16).trans (Nat.mod_eq_of_lt hk)
    exact ⟨⟨BitVec.ofNat 16 k, hval.symm ▸ hp⟩, Subtype.ext hval⟩

/-- The non-zero words with a property of their value are those below 2^16, but for 0. -/
theorem card_nonzero_words_add :
    Nat.card { d : Word // d ≠ 0 ∧ p d.toNat } + (if p 0 then 1 else 0) = Nat.count p 65536 := by
  have hne (d : Word) : d ≠ 0 ↔ d.toNat ≠ 0 := BitVec.toNat_ne_iff_ne.symm
  simp only [hne]
  rw [card_words_eq_count (fun k => k ≠ 0 ∧ p k), Nat.count_succ' p 65535, Nat.count_succ' _ 65535]
  simp

/-- A property that repeats with a period counts the same in every period. -/
theorem count_mul_of_periodic {m : Nat} (hp : Function.Periodic p m) (n : Nat) :
    Nat.count p (m * n) = n * Nat.count p m := by
  induction n with
  | zero => simp
  | succ n ih =>
    have hshift (k : Nat) : p (m * n + k) = p k := by
      rw [Nat.add_comm, Nat.mul_comm]
      exact hp.nat_mul n k
    simp only [Nat.mul_succ, Nat.count_add, ih, hshift]
    ring

end Count

theorem card_nonzero_words_of_residue {m r : Nat} (hr : r < m) :
    Nat.card { d : Word // d ≠ 0 ∧ d.toNat % m = r } + (if 0 = r then 1 else 0) =
      65536 / m + if r < 65536 % m then 1 else 0 := by
  have hcount := Nat.count_modEq_card 65536 (Nat.zero_lt_of_lt hr) r
  simp only [Nat.ModEq, Nat.mod_eq_of_lt hr] at hcount
  rw [← hcount, ← card_nonzero_words_add, Nat.zero_mod]

/-- The residues that the floor raises to 50, and 50 itself (R120). -/
theorem dutyOf_eq_floor_iff {d : Word} : dutyOf d = 50 ↔ d.toNat % 255 < 51 := by
  rw [← BitVec.toNat_inj, dutyOf_toNat]
  change _ = 50 ↔ _
  split_ifs <;> omega

theorem dutyOf_eq_iff {d : Word} {v : Byte} (hv : 51 ≤ v.toNat) : dutyOf d = v ↔ d.toNat % 255 = v.toNat := by
  rw [← BitVec.toNat_inj, dutyOf_toNat]
  split_ifs <;> omega

theorem delayOf_eq_iff {d : Word} {k : BitVec 6} : delayOf d = k ↔ d.toNat % 50 = k.toNat := by
  rw [← BitVec.toNat_inj, delayOf_toNat, Config.maxDelayMs]

/-- In n periods of 255 and one more, the residues 0 to 50 come up 51 times a period and once more. -/
theorem count_floor_residues (n : Nat) : Nat.count (fun k => k % 255 < 51) (255 * n + 1) = n * 51 + 1 := by
  have hperiodic : Function.Periodic (fun k => k % 255 < 51) 255 := fun k => by simp
  have hfilter : (Finset.range 255).filter (fun k => k % 255 < 51) = Finset.range 51 := by
    ext k
    rw [Finset.mem_filter, Finset.mem_range, Finset.mem_range]
    omega
  have hperiod : Nat.count (fun k => k % 255 < 51) 255 = 51 := by
    rw [Nat.count_eq_card_filter_range, hfilter, Finset.card_range]
  rw [Nat.count_succ, count_mul_of_periodic _ hperiodic, hperiod, Nat.mul_mod_right, if_pos (by decide)]

theorem card_floor_draws : Nat.card { d : Word // d ≠ 0 ∧ d.toNat % 255 < 51 } = 13107 := by
  have hall := card_nonzero_words_add (fun k => k % 255 < 51)
  have hsize : 65536 = 255 * 257 + 1 := by norm_num
  rw [hsize, count_floor_residues, if_pos (by decide)] at hall
  exact Nat.succ_injective hall

/-- Settles O21: the draws of a value are those of its residues, and 65 536 is 257 periods of 255 and one more, or
1 310 periods of 50 and 36 more; the draw 0 is left out. -/
theorem drawDistribution : Obligations.DrawDistribution := by
  refine ⟨?_, fun v h51 h254 => ?_, fun k h1 h35 => ?_, fun k hk => ?_⟩
  · simp only [dutyOf_eq_floor_iff]
    exact card_floor_draws
  · have hcard := card_nonzero_words_of_residue (m := 255) (r := v.toNat) (by omega)
    rw [if_neg (by omega), if_neg (by omega)] at hcard
    simp only [dutyOf_eq_iff h51]
    exact hcard
  · have hcard := card_nonzero_words_of_residue (m := 50) (r := k.toNat) (by omega)
    rw [if_neg (by omega), if_pos (by omega)] at hcard
    simp only [delayOf_eq_iff]
    exact hcard
  · have hcard := card_nonzero_words_of_residue (m := 50) (r := k.toNat) (by omega)
    simp only [delayOf_eq_iff]
    obtain h0 | h36 := hk
    · rw [if_pos h0.symm, if_pos (by omega)] at hcard
      exact Nat.add_right_cancel hcard
    · rw [if_neg (by omega), if_neg (by omega)] at hcard
      exact hcard

end Sys2Proof.Machine

/-! ### Proofs of the access summary (10_state.md section 6) -/

namespace Sys2Proof.Machine

/-! #### Frames (10_state.md R36) -/

/-- Settles O33: the three drawing operations, one by one; DUTY's write keeps the other channel's threshold. -/
theorem drawingFrame : Obligations.DrawingFrame := by
  intro i s t hi h
  have hrom (a : Nat) : readByte t.rom a = readByte s.rom a := by rw [exec_rom h]
  obtain rfl | ⟨c, rfl⟩ | rfl := draws_iff.1 hi
  · cases h
    exact ⟨rfl, rfl, rfl, rfl, rfl, rfl, rfl, fun _ _ => rfl, fun _ => rfl, fun _ => rfl, hrom⟩
  · cases h
    refine ⟨rfl, rfl, rfl, rfl, rfl, rfl, rfl, fun d hd => ?_, fun _ => rfl, fun hd => absurd rfl (hd c), hrom⟩
    exact PerChannel.get_set_other _ _ fun hdc => hd (hdc ▸ rfl)
  · cases h
    exact ⟨rfl, rfl, rfl, rfl, rfl, rfl, rfl, fun _ _ => rfl, fun hd => absurd rfl hd, fun _ => rfl, hrom⟩

/-- Settles O34: the three operations' updates are of WCNT and PC alone. -/
theorem waitAndJumpFrame : Obligations.WaitAndJumpFrame := by
  intro i s t hi h
  have hrom (a : Nat) : readByte t.rom a = readByte s.rom a := by rw [exec_rom h]
  obtain rfl | ⟨n, rfl⟩ | ⟨a, rfl⟩ := hi
  · cases h
    exact ⟨rfl, rfl, rfl, rfl, rfl, rfl, rfl, rfl, rfl, rfl, nofun, hrom⟩
  · cases h
    exact ⟨rfl, rfl, rfl, rfl, rfl, rfl, rfl, rfl, rfl, rfl, nofun, hrom⟩
  · cases h
    exact ⟨rfl, rfl, rfl, rfl, rfl, rfl, rfl, rfl, rfl, rfl, fun _ => rfl, hrom⟩

/-- Settles O35: each of the four operations updates the one register it writes and appends the write. -/
theorem interfaceWriteFrame : Obligations.InterfaceWriteFrame := by
  intro i s t hi h
  have hrom (a : Nat) : readByte t.rom a = readByte s.rom a := by rw [exec_rom h]
  obtain ⟨c, v, rfl⟩ | ⟨c, v, rfl⟩ | ⟨m, rfl⟩ | rfl := hi
  · cases h
    refine ⟨rfl, rfl, rfl, rfl, rfl, rfl, fun d hd => ?_, fun _ _ => rfl, fun _ => rfl, fun _ => rfl, ⟨_, _, rfl⟩, hrom⟩
    exact PerChannel.get_set_other _ _ fun hdc => hd v (hdc ▸ rfl)
  · cases h
    refine ⟨rfl, rfl, rfl, rfl, rfl, rfl, fun _ _ => rfl, fun d hd => ?_, fun _ => rfl, fun _ => rfl, ⟨_, _, rfl⟩, hrom⟩
    exact PerChannel.get_set_other _ _ fun hdc => hd v (hdc ▸ rfl)
  · cases h
    exact ⟨rfl, rfl, rfl, rfl, rfl, rfl, fun _ _ => rfl, fun _ _ => rfl, fun hm => absurd rfl (hm m), fun _ => rfl,
      ⟨_, _, rfl⟩, hrom⟩
  · cases h
    exact ⟨rfl, rfl, rfl, rfl, rfl, rfl, fun _ _ => rfl, fun _ _ => rfl, fun _ => rfl, fun hp => absurd rfl hp,
      ⟨_, _, rfl⟩, hrom⟩

/-! #### What the operations read (R36) -/

theorem exec_pc_congr {i : Instr} {s s' t t' : State} (h : exec i s = .next t) (h' : exec i s' = .next t')
    (hpc : s.pc = s'.pc) : t.pc = t'.pc := by
  by_cases hi : ∃ a, i = .jmp a
  · obtain ⟨a, rfl⟩ := hi
    rw [exec_jmp_pc h, exec_jmp_pc h']
  · have hne : ∀ a, i ≠ .jmp a := fun a ha => hi ⟨a, ha⟩
    rw [exec_pc_of_ne_jmp h hne, exec_pc_of_ne_jmp h' hne, hpc]

/-- Two channel pairs that agree but for channel c are one pair once c is written. -/
theorem PerChannel.set_congr {α : Type} {p q : PerChannel α} {c : Channel} (v : α)
    (hpq : ∀ d, d ≠ c → p.get d = q.get d) : p.set c v = q.set c v := by
  refine PerChannel.ext_get fun d => ?_
  obtain rfl | hd := eq_or_ne d c
  · rw [PerChannel.get_set_same, PerChannel.get_set_same]
  · rw [PerChannel.get_set_other p v hd, PerChannel.get_set_other q v hd, hpq d hd]

/-- What an operation emits depends on the LFSR for DUTY and on the other channel's enable for ENSET. -/
theorem exec_events_congr {i : Instr} {s s' t t' : State} (h : exec i s = .next t) (h' : exec i s' = .next t')
    (hlfsr : Draws i = true → s.lfsr = s'.lfsr)
    (hen : ∀ c v d, i = .enset c v → d ≠ c → s.en.get d = s'.en.get d) :
    ∃ es, t.history = s.history ++ es ∧ t'.history = s'.history ++ es := by
  cases i with
  | draw | rdly | waitd | waitms | jmp =>
    cases h
    cases h'
    exact ⟨[], (List.append_nil _).symm, (List.append_nil _).symm⟩
  | ocrw | dirset | pwmcfg =>
    cases h
    cases h'
    exact ⟨_, rfl, rfl⟩
  | duty c =>
    cases h
    cases h'
    refine ⟨_, rfl, ?_⟩
    rw [hlfsr rfl]
    rfl
  | enset c v =>
    cases h
    cases h'
    have hset : s.en.set c v = s'.en.set c v := PerChannel.set_congr v fun d hd => hen c v d rfl hd
    refine ⟨[.wr .outen (pairByte (s.en.set c v))], rfl, ?_⟩
    rw [hset]
    rfl

/-- Settles O36: each register that is written, by the operation that writes it, from the state it reads. -/
theorem operationsReadOnlyWhatIsListed : Obligations.OperationsReadOnlyWhatIsListed := by
  intro i s s' t t' h h' hpc hlfsr hdly hen
  have hlfsr' : Draws i = true → t.lfsr = t'.lfsr := fun hi => by
    rw [exec_lfsr_of_draws hi h, exec_lfsr_of_draws hi h', hlfsr hi]
  refine ⟨exec_pc_congr h h' hpc, hlfsr', ?_, ?_, ?_, ?_, ?_, ?_, ?_⟩
  · rintro c (rfl | ⟨v, rfl⟩)
    · cases h
      cases h'
      simp [hlfsr rfl]
    · cases h
      cases h'
      simp
  · rintro rfl
    cases h
    cases h'
    simp [hlfsr rfl]
  · rintro (rfl | ⟨n, rfl⟩)
    · cases h
      cases h'
      simp [hdly rfl]
    · cases h
      cases h'
      rfl
  · rintro c v rfl
    cases h
    cases h'
    simp
  · rintro m rfl
    cases h
    cases h'
    rfl
  · rintro rfl
    cases h
    cases h'
    rfl
  · exact exec_events_congr h h' hlfsr hen

end Sys2Proof.Machine

/-! ### Proofs about phases, interleavings, the history and waits -/

namespace Sys2Proof.Machine

/-! #### The phases and the faulted state (R33, R143, R203) -/

theorem stuckReason_of_illegalOp {s : State} (h : s.fcause = 1) : stuckReason s = .stuckIllegalOp := if_pos h

theorem stuckReason_of_other {s : State} (h : s.fcause ≠ 1) : stuckReason s = .reservedCause := if_neg h

theorem agentTurn_tickSource_idle {s : State} (h : s.wcnt = 0) : agentTurn .tickSource s = .next s := by
  rw [agentTurn_tickSource, tickStep_idle h]

/-- Settles O40: FAULTED is no phase of a step or a turn, and a tick with no wait in progress is lost. -/
theorem faultedIsStuck : Obligations.FaultedIsStuck := by
  refine ⟨fun s hf hc => ?_, fun s hf hc => ?_, fun s t hf => ?_, fun s hf => ?_, fun s _ => agentTurn_tickSource_idle,
    fun _ => rfl⟩
  · rw [step_of_faulted hf, stuckReason_of_illegalOp hc]
  · rw [step_of_faulted hf, stuckReason_of_other hc]
  · rw [step_of_faulted hf]
    exact nofun
  · refine agentTurn_sequencer_of_not_ready ?_
    rw [phase_eq_faulted.2 hf]
    decide

/-- Settles O42: the step and the agents' turns by phase. -/
theorem phaseDecidesWhoSteps : Obligations.PhaseDecidesWhoSteps := by
  refine fun s => ⟨phase_eq_faulted, phase_eq_waiting, phase_eq_ready, fun hp => ⟨?_, ?_⟩, fun hp => ⟨?_, ?_⟩,
    fun hp => ?_⟩
  · obtain ⟨hf, hw⟩ := phase_eq_waiting.1 hp
    exact step_of_waiting hf hw
  · exact agentTurn_sequencer_of_not_ready (by rw [hp]; decide)
  · exact (agentTurn_sequencer_of_ready hp).symm
  · exact agentTurn_tickSource_idle (phase_eq_ready.1 hp).2
  · exact ⟨_, step_of_faulted (phase_eq_faulted.1 hp)⟩

/-! #### The history (R54, R62) -/

theorem step_history {s t : State} (h : step s = .next t) : ∃ es, t.history = s.history ++ es ∧ es.length ≤ 1 := by
  obtain ⟨-, ⟨-, rfl⟩ | ⟨-, i, -, hi⟩ | ⟨-, -, rfl⟩⟩ := step_next_cases h
  · exact ⟨[.tick], rfl, le_refl 1⟩
  · obtain ⟨es, hhist, hlen, -⟩ := exec_history hi
    exact ⟨es, hhist, hlen⟩
  · exact ⟨_, rfl, le_refl 1⟩

theorem run_history_prefix {n : Nat} {s t : State} (h : run n s = .next t) : s.history <+: t.history := by
  refine run_keeps (P := (s.history <+: ·.history)) (fun hu hs => ?_) h (List.prefix_refl _)
  obtain ⟨es, hhist, -⟩ := step_history hu
  exact hs.trans ⟨es, hhist.symm⟩

/-- Settles O48: a step appends its one event, or an operation's. -/
theorem historyOnlyGrows : Obligations.HistoryOnlyGrows := ⟨fun _ _ => step_history, fun _ _ _ => run_history_prefix⟩

/-! #### Interleavings (R62, R207) -/

/-- No wait is in progress once the sequencer is FAULTED. -/
def IdleWhenFaulted (s : State) : Prop := s.fault = true → s.wcnt = 0

theorem step_idleWhenFaulted {s t : State} (h : step s = .next t) : IdleWhenFaulted t := by
  intro hfault
  obtain ⟨hf, ⟨-, rfl⟩ | ⟨-, i, -, hi⟩ | ⟨hw, -, rfl⟩⟩ := step_next_cases h
  · exact absurd (hf.symm.trans hfault) (by decide)
  · obtain ⟨hkeep, -, -⟩ := exec_keeps_faultRecord hi
    exact absurd (hf.symm.trans (hkeep.symm.trans hfault)) (by decide)
  · exact hw

/-- The sequencer's step in its turn always goes on (R200). -/
theorem step_of_ready_completes {s : State} (hp : phase s = .ready) : ∃ t, step s = .next t := by
  obtain ⟨-, hfault⟩ := onlyIllegalWordsFault
  obtain ⟨t, ht, -⟩ := hfault s hp
  exact ⟨t, ht⟩

/-- A turn either changes nothing or is the machine's step. -/
theorem agentTurn_idle_or_step {s : State} (a : Agent) (hs : IdleWhenFaulted s) :
    agentTurn a s = .next s ∨ ∃ u, agentTurn a s = .next u ∧ step s = .next u := by
  cases a with
  | sequencer =>
    by_cases hp : phase s = .ready
    · obtain ⟨u, hu⟩ := step_of_ready_completes hp
      exact .inr ⟨u, (agentTurn_sequencer_of_ready hp).trans hu, hu⟩
    · exact .inl (agentTurn_sequencer_of_not_ready hp)
  | tickSource =>
    by_cases hw : s.wcnt = 0
    · exact .inl (agentTurn_tickSource_idle hw)
    · have hf : s.fault = false := eq_false_of_ne_true fun hf => hw (hs hf)
      exact .inr ⟨_, agentTurn_tickSource s, step_of_waiting hf hw⟩

theorem runSchedule_cons_next {a : Agent} {s u : State} (turns : List Agent) (h : agentTurn a s = .next u) :
    runSchedule (a :: turns) s = runSchedule turns u := by
  simp only [runSchedule, h]

theorem runSchedule_is_run (turns : List Agent) {s : State} (hs : IdleWhenFaulted s) :
    ∃ n t, n ≤ turns.length ∧ runSchedule turns s = .next t ∧ run n s = .next t := by
  induction turns generalizing s with
  | nil => exact ⟨0, s, le_refl 0, rfl, rfl⟩
  | cons a turns ih =>
    obtain hidle | ⟨u, hturn, hstep⟩ := agentTurn_idle_or_step a hs
    · obtain ⟨n, t, hn, hsched, hrun⟩ := ih hs
      exact ⟨n, t, Nat.le_succ_of_le hn, (runSchedule_cons_next turns hidle).trans hsched, hrun⟩
    · obtain ⟨n, t, hn, hsched, hrun⟩ := ih (step_idleWhenFaulted hstep)
      exact ⟨n + 1, t, Nat.succ_le_succ hn, (runSchedule_cons_next turns hturn).trans hsched,
        (run_succ_next n hstep).trans hrun⟩

/-- Settles O43: by induction on the turns, leaving out those that change nothing. -/
theorem everyScheduleIsARun : Obligations.EveryScheduleIsARun := fun turns _ hs => runSchedule_is_run turns hs

/-- The rest of a longer run. -/
theorem run_add_of_next {m : Nat} {s t : State} (h : run m s = .next t) (n : Nat) : run (m + n) s = run n t := by
  induction m generalizing s with
  | zero =>
    cases h
    rw [Nat.zero_add]
  | succ m ih =>
    obtain ⟨u, hu, hrun⟩ := run_succ_eq_next h
    rw [Nat.succ_add, run_succ_next _ hu, ih hrun]

theorem history_prefix_of_longer_run {m n : Nat} {s t u : State} (hmn : m ≤ n) (ht : run m s = .next t)
    (hu : run n s = .next u) : t.history <+: u.history := by
  obtain ⟨k, rfl⟩ := Nat.exists_eq_add_of_le hmn
  exact run_history_prefix ((run_add_of_next ht k).symm.trans hu)

/-- Settles O44: both schedules are runs, and the longer run goes on from where the shorter ends. -/
theorem schedulesAgreeOnHistory : Obligations.SchedulesAgreeOnHistory := by
  intro turns turns' s t t' hs h h'
  obtain ⟨m, u, -, hsched, hrun⟩ := runSchedule_is_run turns hs
  obtain ⟨n, u', -, hsched', hrun'⟩ := runSchedule_is_run turns' hs
  cases h.symm.trans hsched
  cases h'.symm.trans hsched'
  obtain hmn | hnm := Nat.le_total m n
  · exact .inl (history_prefix_of_longer_run hmn hrun hrun')
  · exact .inr (history_prefix_of_longer_run hnm hrun' hrun)

/-! #### PWM_ON (R27) -/

theorem exec_keeps_pwmOn {i : Instr} {s t : State} (h : exec i s = .next t) (hs : s.pwmOn = true) :
    t.pwmOn = true := by
  cases i with
  | pwmcfg => cases h; rfl
  | draw | duty | rdly | waitd | waitms | ocrw | enset | dirset | jmp => cases h; exact hs

theorem step_keeps_pwmOn {s t : State} (h : step s = .next t) (hs : s.pwmOn = true) : t.pwmOn = true := by
  obtain ⟨-, ⟨-, rfl⟩ | ⟨-, i, -, hi⟩ | ⟨-, -, rfl⟩⟩ := step_next_cases h
  · exact hs
  · exact exec_keeps_pwmOn hi hs
  · exact hs

/-- Settles O49: PWMCFG alone writes PWM_ON, and it sets it. -/
theorem pwmStaysOn : Obligations.PwmStaysOn :=
  ⟨fun _ _ _ => run_keeps (P := (·.pwmOn = true)) step_keeps_pwmOn, fun _ => rfl⟩

/-! #### Waits (R29, R143, R144) -/

/-- A state k ticks later in its wait. -/
def afterTicks (k : Nat) (s : State) : State :=
  { s with wcnt := BitVec.ofNat 12 (s.wcnt.toNat - k), history := s.history ++ List.replicate k .tick }

theorem afterTicks_zero (s : State) : afterTicks 0 s = s := by
  rw [afterTicks, Nat.sub_zero, BitVec.ofNat_toNat, BitVec.setWidth_eq, List.replicate_zero, List.append_nil]

theorem afterTicks_tickStep {s : State} (k : Nat) (hw : s.wcnt ≠ 0) :
    afterTicks k (tickStep s) = afterTicks (k + 1) s := by
  have hcount : (s.wcnt - 1).toNat - k = s.wcnt.toNat - (k + 1) := by
    rw [sub_one_toNat hw]
    omega
  have hhist : s.history ++ [.tick] ++ List.replicate k .tick = s.history ++ List.replicate (k + 1) .tick := by
    rw [List.append_assoc]
    rfl
  rw [tickStep_busy hw, afterTicks, afterTicks, record_history, setWcnt_history, hhist, record_wcnt, setWcnt_wcnt,
    hcount]
  rfl

theorem run_of_waiting {s : State} {k : Nat} (hf : s.fault = false) (hk : k ≤ s.wcnt.toNat) :
    run k s = .next (afterTicks k s) := by
  induction k generalizing s with
  | zero =>
    rw [afterTicks_zero]
    rfl
  | succ k ih =>
    have hw : s.wcnt ≠ 0 := by
      intro h
      have hzero : s.wcnt.toNat = 0 := congrArg BitVec.toNat h
      omega
    have hfault : (tickStep s).fault = false := by rw [tickStep_busy hw, record_fault, setWcnt_fault, hf]
    have hcount : k ≤ (tickStep s).wcnt.toNat := by
      rw [tickStep_busy hw, record_wcnt, setWcnt_wcnt, sub_one_toNat hw]
      omega
    rw [run_succ_next k (step_of_waiting hf hw), ih hfault hcount, afterTicks_tickStep k hw]

/-- Settles O60: by induction on the ticks, each of which is the machine's step while WAITING. -/
theorem waitEndsAfterItsTicks : Obligations.WaitEndsAfterItsTicks := fun _ _ => run_of_waiting

/-- The state in which one pass of the loop body, up to WAITD, leaves the sequencer (R164). -/
def cycleState (s : State) : State :=
  { s with
    lfsr := (cycle s.lfsr).lfsr
    ocr := ⟨.written (cycle s.lfsr).duty0, .written (cycle s.lfsr).duty1⟩
    dly := (cycle s.lfsr).delay
    wcnt := delayTicks (cycle s.lfsr).delay
    pc := s.pc + 1 + 1 + 1 + 1
    history := s.history ++ [.wr .ocr0 (cycle s.lfsr).duty0] ++ [.wr .ocr1 (cycle s.lfsr).duty1] }

theorem exec_cycle (s : State) : ∃ s1 s2 s3, exec (.duty .ch0) s = .next s1 ∧ exec (.duty .ch1) s1 = .next s2 ∧
    exec .rdly s2 = .next s3 ∧ exec .waitd s3 = .next (cycleState s) := by
  refine ⟨_, _, _, exec_duty s .ch0, exec_duty _ .ch1, exec_rdly _, (exec_waitd _).trans ?_⟩
  simp only [cycleState, cycle, advancePc, setPc, setWcnt, setDly, draw, setLfsr, emit, record, setOcr, PerChannel.set,
    ocrReg]

/-- Settles O59: the four operations end in `cycleState`, whose wait then runs for its ticks. -/
theorem cycleIsPureFunction : Obligations.CycleIsPureFunction := by
  intro s a hf
  obtain ⟨s1, s2, s3, h1, h2, h3, h4⟩ := exec_cycle s
  have hwcnt : (cycleState s).wcnt.toNat = (cycle s.lfsr).delay.toNat := delayTicks_toNat _
  have hrun := run_of_waiting (s := cycleState s) hf hwcnt.ge
  refine ⟨s1, s2, s3, _, _, _, h1, h2, h3, h4, hrun, exec_jmp _ a, phase_eq_ready.2 ⟨hf, ?_⟩, rfl, rfl, rfl, rfl, ?_⟩
  · rw [afterTicks, hwcnt, Nat.sub_self]
    rfl
  · rw [setPc_history, afterTicks, cycleState, List.append_assoc s.history]
    rfl

end Sys2Proof.Machine

/-! ### Proofs about the ROM -/

namespace Sys2Proof.Machine

/-! #### Reading a ROM image (R51, R55, R175) -/

/-- A listing of the bytes from `lo` on that differ from an unlisted one reads as it was made. -/
theorem readByte_filterMap (f : Nat → Byte) (n lo a : Nat) (h : ¬ (lo ≤ a ∧ a < lo + n) → f a = unlistedByte a) :
    readByte ((List.range' lo n).filterMap fun a => if f a = unlistedByte a then none else some (a, f a)) a = f a := by
  induction n generalizing lo with
  | zero => exact (h (by omega)).symm
  | succ n ih =>
    rw [List.range'_succ, List.filterMap_cons]
    by_cases hlo : f lo = unlistedByte lo
    · have hrest : ¬ (lo + 1 ≤ a ∧ a < lo + 1 + n) → f a = unlistedByte a := fun hout => by
        obtain rfl | hne := eq_or_ne a lo
        · exact hlo
        · exact h (by omega)
      simp only [if_pos hlo]
      exact ih (lo + 1) hrest
    · simp only [if_neg hlo, readByte]
      split_ifs with ha
      · rw [ha]
      · exact ih (lo + 1) fun hout => h (by omega)

theorem readByte_romOfProgram (p : List (Nat × Word)) {a : Nat} (ha : a < romBytes) :
    readByte (romOfProgram p) a = imageByte (programWord p (a / 2)) (a % 2) := by
  have h := readByte_filterMap (fun a => imageByte (programWord p (a / 2)) (a % 2)) romBytes 0 a fun hout => by omega
  rw [← List.range_eq_range'] at h
  exact h

/-- A word whose two bytes are those of w is w. -/
theorem romRead_of_bytes {m : List Host.Cell} {a : Byte} {w : Word}
    (h : ∀ n < 2, readByte m (2 * a.toNat + n) = imageByte w n) : romRead m a = w := by
  rw [romRead, ← wordOfBytes_imageByte w, ← h 0 (by decide), ← h 1 (by decide)]
  rfl

theorem romRead_romOfProgram (p : List (Nat × Word)) (a : Byte) :
    romRead (romOfProgram p) a = programWord p a.toNat := by
  refine romRead_of_bytes fun n hn => ?_
  have ha := byteAddr_lt a
  have hword : (2 * a.toNat + n) / 2 = a.toNat := by omega
  have hbyte : (2 * a.toNat + n) % 2 = n := by omega
  rw [readByte_romOfProgram p (by omega), hword, hbyte]

theorem romRead_nil (a : Byte) : romRead [] a = Config.referenceWord a.toNat := by
  refine romRead_of_bytes fun n hn => ?_
  have hword : (2 * a.toNat + n) / 2 = a.toNat := by omega
  have hbyte : (2 * a.toNat + n) % 2 = n := by omega
  rw [readByte, unlistedByte, hword, hbyte]

theorem programWord_of_unfilled {p : List (Nat × Word)} {a : Nat} (h : ∀ q ∈ p, q.1 ≠ a) :
    programWord p a = 0x0000 := by
  induction p with
  | nil => rfl
  | cons q p ih =>
    obtain ⟨hq, hp⟩ := List.forall_mem_cons.1 h
    exact (if_neg hq.symm).trans (ih hp)

theorem romRead_toNat (m : List Host.Cell) (a : Byte) : (romRead m a).toNat =
    (readByte m (2 * a.toNat)).toNat + 256 * (readByte m (2 * a.toNat + 1)).toNat := by
  rw [romRead, wordOfBytes, append_toNat]
  omega

/-- Settles O52: the image lists the bytes of the program's words that differ from the reference content, low byte
first, and the all-zero word has an unassigned opcode. -/
theorem romHoldsItsProgram : Obligations.RomHoldsItsProgram := by
  refine ⟨fun p a => ⟨romRead_romOfProgram p a, fun h => ?_⟩, romRead_toNat, fun i => ?_⟩
  · rw [romRead_romOfProgram, programWord_of_unfilled h]
  · rw [decodeWord_of_unassigned (.inl rfl)]
    exact nofun

/-- Settles O55: reset lists no byte, and an image that lists none reads as the reference program's words. -/
theorem resetRomIsReference : Obligations.ResetRomIsReference := romRead_nil

/-! #### The canonical form (log entry 4) -/

@[simp] theorem readByte_cons_same (k : Nat) (b : Byte) (m : List Host.Cell) : readByte ((k, b) :: m) k = b :=
  if_pos rfl

theorem readByte_cons_other {k a : Nat} (b : Byte) (m : List Host.Cell) (ha : a ≠ k) :
    readByte ((k, b) :: m) a = readByte m a := if_neg ha

/-- A canonical image whose reads are another's first entry's lists nothing below that entry. -/
theorem le_of_canonical_cons {lo k k' : Nat} {b b' : Byte} {m m' : List Host.Cell}
    (h : canonicalFrom lo ((k, b) :: m) = true) (h' : canonicalFrom lo ((k', b') :: m') = true)
    (hread : readByte ((k, b) :: m) k = readByte ((k', b') :: m') k) : k' ≤ k := by
  by_contra hlt
  obtain ⟨-, -, hb, -⟩ := canonicalFrom_cons.1 h
  obtain ⟨-, hr, hb', hm'⟩ := canonicalFrom_cons.1 h'
  have hcanon : canonicalFrom k' ((k', b') :: m') = true := canonicalFrom_cons.2 ⟨le_refl k', hr, hb', hm'⟩
  rw [readByte_cons_same, readByte_below hcanon (by omega)] at hread
  exact hb hread

theorem canonicalFrom_ext {lo : Nat} {m m' : List Host.Cell} (h : canonicalFrom lo m = true)
    (h' : canonicalFrom lo m' = true) (hread : ∀ a, readByte m a = readByte m' a) : m = m' := by
  induction m generalizing lo m' with
  | nil =>
    cases m' with
    | nil => rfl
    | cons c m' =>
      obtain ⟨-, -, hb, -⟩ := canonicalFrom_cons.1 h'
      exact absurd ((hread c.1).trans (readByte_cons_same ..)).symm hb
  | cons c m ih =>
    obtain ⟨-, -, hb, hm⟩ := canonicalFrom_cons.1 h
    cases m' with
    | nil => exact absurd ((readByte_cons_same ..).symm.trans (hread c.1)) hb
    | cons c' m' =>
      obtain ⟨k, b⟩ := c
      obtain ⟨k', b'⟩ := c'
      obtain ⟨-, -, -, hm'⟩ := canonicalFrom_cons.1 h'
      obtain rfl : k = k' := Nat.le_antisymm (le_of_canonical_cons h' h (hread k').symm)
        (le_of_canonical_cons h h' (hread k))
      obtain rfl : b = b' := by simpa using hread k
      have htail (a : Nat) : readByte m a = readByte m' a := by
        obtain rfl | ha := eq_or_ne a k
        · rw [readByte_below hm (Nat.lt_succ_self a), readByte_below hm' (Nat.lt_succ_self a)]
        · rw [← readByte_cons_other b m ha, hread a, readByte_cons_other b m' ha]
      rw [ih hm hm' htail]

/-- Settles O53: by induction on both lists, whose first entries stand at the first address that does not read as an
unlisted one. -/
theorem canonicalRomIsUnique : Obligations.CanonicalRomIsUnique := fun _ _ => canonicalFrom_ext

/-! #### A placed word (R51, R141) -/

theorem withFetchWord_eq (s : State) (w : Word) : s.withFetchWord 16 w.toNat = setFetchWord w s := by
  have hw : BitVec.ofNat 16 (w.toNat % 2 ^ 16) = w := by
    rw [Nat.mod_eq_of_lt w.isLt, BitVec.ofNat_toNat, BitVec.setWidth_eq]
  rw [State.withFetchWord, hw]

/-- Settles O54: placing the word makes the sequencer READY, and the fetch at PC reads the word just loaded. -/
theorem placedWordRunsNext : Obligations.PlacedWordRunsNext := by
  intro s w hrom
  rw [withFetchWord_eq]
  have hready : phase (setFetchWord w s) = .ready := phase_eq_ready.2 ⟨rfl, rfl⟩
  have hfetch : fetchWord (setFetchWord w s) = w := romRead_loadWord_same s.pc w hrom
  refine ⟨fun i hd => ?_, fun why hd => ?_, fun a ha => romRead_loadWord_other s.rom w ha⟩
  · exact step_of_ready_op hready (hfetch.symm ▸ hd)
  · rw [step_of_ready_illegal hready (hfetch.symm ▸ hd), hfetch]

end Sys2Proof.Machine

/-! ### Proofs about the interface registers, the lamps and reset -/

namespace Sys2Proof.Machine

/-! #### The interface register map (R53) -/

theorem ifRegOfId_eq_ok {id : Byte} {r : IfReg} (h : ifRegOfId id = .ok r) : ifRegId r = id ∧ id.toNat ≤ 4 := by
  unfold ifRegOfId at h
  split at h
  case h_6 => cases h
  all_goals
    next hid =>
      cases h
      exact ⟨BitVec.eq_of_toNat_eq hid.symm, hid.trans_le (by decide)⟩

theorem ifRegOfId_eq_error {id : Byte} {e : Refusal} (h : ifRegOfId id = .error e) :
    e = .noInterfaceRegister id ∧ 5 ≤ id.toNat := by
  unfold ifRegOfId at h
  split at h
  case h_6 =>
    cases h
    refine ⟨rfl, ?_⟩
    simp only [imp_false] at *
    omega
  all_goals cases h

theorem pairByte_toNat (p : PerChannel Bool) : (pairByte p).toNat = 2 * p.ch1.toNat + p.ch0.toNat := by
  obtain ⟨a, b⟩ := p
  cases a <;> cases b <;> rfl

theorem bitByte_toNat (b : Bool) : (bitByte b).toNat = b.toNat := by
  cases b <;> rfl

/-- Which operations write each interface register (R53's map), and OCRW the value it is given. -/
def WritesRegister : Instr → IfReg → Byte → Prop
  | i, .ocr0, v => i = .duty .ch0 ∨ i = .ocrw .ch0 v
  | i, .ocr1, v => i = .duty .ch1 ∨ i = .ocrw .ch1 v
  | i, .outen, _ => ∃ c b, i = .enset c b
  | i, .dir, _ => ∃ m, i = .dirset m
  | i, .pwmctl, _ => i = .pwmcfg

theorem wr_inj_of_append {h : List Event} {q r : IfReg} {u v : Byte} (heq : h ++ [.wr q u] = h ++ [.wr r v]) :
    q = r ∧ u = v := by
  simpa using heq

theorem writesRegister_of_history {i : Instr} {s t : State} {r : IfReg} {v : Byte} (h : exec i s = .next t)
    (hhist : t.history = s.history ++ [.wr r v]) : WritesRegister i r v := by
  cases i with
  | draw | rdly | waitd | waitms | jmp =>
    cases h
    exact absurd (List.self_eq_append_right.1 hhist) (List.cons_ne_nil _ _)
  | duty c =>
    cases h
    obtain ⟨rfl, rfl⟩ := wr_inj_of_append hhist
    cases c
    · exact .inl rfl
    · exact .inl rfl
  | ocrw c n =>
    cases h
    obtain ⟨rfl, rfl⟩ := wr_inj_of_append hhist
    cases c
    · exact .inr rfl
    · exact .inr rfl
  | enset c b =>
    cases h
    obtain ⟨rfl, rfl⟩ := wr_inj_of_append hhist
    exact ⟨c, b, rfl⟩
  | dirset m =>
    cases h
    obtain ⟨rfl, rfl⟩ := wr_inj_of_append hhist
    exact ⟨m, rfl⟩
  | pwmcfg =>
    cases h
    obtain ⟨rfl, rfl⟩ := wr_inj_of_append hhist
    rfl

/-- What the registers hold after reset (R53). -/
theorem ifRegValue_powerOn (seed : Word) (rom : List Host.Cell) (r : IfReg) :
    ifRegValue (State.powerOn seed rom) r = ifRegReset r := by
  have hpair : pairByte ⟨false, false⟩ = 0 := by decide
  have hbit : bitByte false = 0 := by decide
  cases r with
  | ocr0 | ocr1 => rfl
  | outen | dir => exact congrArg some hpair
  | pwmctl => exact congrArg some hbit

/-- Settles O46: the ids by the lookup's cases, the values bit by bit, and the writers by the event each operation
emits. -/
theorem interfaceRegisterMap : Obligations.InterfaceRegisterMap := by
  refine ⟨fun id => ?_, rfl, fun s v h => ?_, fun s v h => ?_, fun s v h => ?_, fun seed rom => ?_, fun i s t v h => ?_⟩
  · split
    · exact ifRegOfId_eq_ok ‹_›
    · exact ifRegOfId_eq_error ‹_›
  · cases h
    exact pairByte_toNat s.en
  · cases h
    exact pairByte_toNat s.dir
  · cases h
    exact bitByte_toNat s.pwmOn
  · rw [funext (ifRegValue_powerOn seed rom)]
    rfl
  · exact ⟨writesRegister_of_history h, writesRegister_of_history h, writesRegister_of_history h,
      writesRegister_of_history h, writesRegister_of_history h⟩

/-! #### The lamp output (R58) -/

section Lamp
variable {s : State} {c : Channel}

theorem lampOutput_of_not_driven (h : s.dir.get c = false) : lampOutput s c = .ok .off := if_pos h

theorem lampOutput_of_pwm_off (hd : s.dir.get c = true) (hp : s.pwmOn = false) :
    lampOutput s c = .ok (if s.en.get c = true then .on else .off) := by
  simp only [lampOutput, hd, hp]
  cases s.en.get c <;> rfl

theorem lampOutput_of_written {v : Byte} (hd : s.dir.get c = true) (hp : s.pwmOn = true)
    (ho : s.ocr.get c = .written v) : lampOutput s c = .ok (.pwm v) := by
  simp [lampOutput, hd, hp, ho]

theorem lampOutput_of_unwritten (hd : s.dir.get c = true) (hp : s.pwmOn = true) (ho : s.ocr.get c = .unwritten) :
    lampOutput s c = .error .thresholdUnwritten := by
  simp [lampOutput, hd, hp, ho]

end Lamp

/-- Settles O50: the cases of the reading; PWMCFG sets PWM_ON and keeps the threshold. -/
theorem lampOutputReading : Obligations.LampOutputReading := by
  refine fun s c => ⟨lampOutput_of_not_driven, fun hd hp he => ?_, fun hd hp he => ?_, fun v => lampOutput_of_written,
    fun t hd ho h => ?_, fun u v => ?_⟩
  · rw [lampOutput_of_pwm_off hd hp, if_pos he]
  · rw [lampOutput_of_pwm_off hd hp, if_neg (by simp [he])]
  · cases h
    exact lampOutput_of_unwritten hd rfl ho
  · exact decide_eq_true_iff

/-! #### Reset (R230, R231) -/

theorem sound_powerOn (seed : Word) {rom : List Host.Cell} (hrom : Memory.wf rom = true) :
    Sound (State.powerOn seed rom) where
  rom := hrom
  delay := show 0 < Config.maxDelayMs by decide
  record :=
    { clear := fun _ => ⟨rfl, rfl, fun _ h => nomatch h⟩
      cause := nofun
      idle := nofun
      word := nofun
      logged := nofun }
  replays r := (ifRegValue_powerOn seed rom r).symm

/-- Settles O57: the state after reset is sound for every SEED and canonical ROM, so it is for the machine's own. -/
theorem resetIsSoundAndReady : Obligations.ResetIsSoundAndReady :=
  ⟨fun seed _ hrom => ⟨sound_powerOn seed hrom, rfl, rfl, rfl⟩, sound_powerOn Config.seed wf_reset,
    fun _ => ⟨rfl, Config.seed, rfl⟩⟩

/-! #### Words written out and the assembler (R72, R82) -/

/-- Settles O1: the fourteen words decoded. -/
theorem writtenWordsDecode : Obligations.WrittenWordsDecode := by
  unfold Obligations.WrittenWordsDecode
  decide

end Sys2Proof.Machine

/-! ### Proofs about the assembler -/

namespace Sys2Proof.Machine

/-! #### The assembler's words (R82) -/

/-- The word of an assembled operation as a number. -/
def asmWord (o : Option Instr) : Option Nat := o.map fun i => (encode i).toNat

/-- An operand field in the last bits of a word: its operand when it is in range, else no word. -/
theorem asmWord_field {w base : Nat} {f : BitVec w → Instr} (hf : ∀ x, (encode (f x)).toNat = base + x.toNat)
    (n : Nat) : asmWord ((asmField w n).map f) = if n < 2 ^ w then some (base + n) else none := by
  rw [asmField]
  split_ifs with hn
  · have hval : (BitVec.ofNat w n).toNat = n := (BitVec.toNat_ofNat n w).trans (Nat.mod_eq_of_lt hn)
    exact congrArg some ((hf _).trans (congrArg (base + ·) hval))
  · rfl

theorem asmWord_bit {base : Nat} {f : Bool → Instr} (hf : ∀ b, (encode (f b)).toNat = base + b.toNat) (v : Nat) :
    asmWord ((asmBit v).map f) = if v < 2 then some (base + v) else none :=
  match v with
  | 0 => congrArg some (hf false)
  | 1 => congrArg some (hf true)
  | _ + 2 => (if_neg (by omega)).symm

/-- A channel before another operand: no word when either is out of range. -/
theorem asmWord_channel_bind {base x : Nat} {p : Prop} [Decidable p] {f : Channel → Option Instr}
    (hf : ∀ k, asmWord (f k) = if p then some (base + k.toNat * 0x100 + x) else none) (c : Nat) :
    asmWord ((asmChannel c).bind f) = if c < 2 ∧ p then some (base + c * 0x100 + x) else none :=
  match c with
  | 0 => (hf .ch0).trans (by simp [Channel.toNat])
  | 1 => (hf .ch1).trans (by simp [Channel.toNat])
  | _ + 2 => (if_neg (by omega)).symm

theorem asmWord_duty (c : Nat) :
    asmWord ((asmChannel c).map .duty) = if c < 2 then some (0x2000 + c * 0x100) else none := by
  have h := asmWord_channel_bind (p := True) (x := 0) (f := some ∘ .duty)
    (fun k => congrArg some (encode_duty_toNat k)) c
  rw [Option.map_eq_bind, h]
  simp only [and_true, Nat.add_zero]

/-! #### Labels (R82) -/

theorem mem_of_labelAddr {labels : List (Text × Nat)} {l : Text} {t : Nat} (h : labelAddr labels l = some t) :
    (l, t) ∈ labels := by
  induction labels with
  | nil => cases h
  | cons p labels ih =>
    obtain ⟨k, a⟩ := p
    rw [labelAddr] at h
    split_ifs at h with hk
    · cases h
      exact hk ▸ List.mem_cons_self
    · exact List.mem_cons_of_mem _ (ih h)

theorem labelAddr_of_mem {labels : List (Text × Nat)} {l : Text} {t : Nat} (hnodup : (labels.map Prod.fst).Nodup)
    (h : (l, t) ∈ labels) : labelAddr labels l = some t := by
  induction labels with
  | nil => cases h
  | cons p labels ih =>
    obtain ⟨k, a⟩ := p
    obtain ⟨hk, hrest⟩ := List.nodup_cons.1 hnodup
    rw [labelAddr]
    obtain heq | hmem := List.mem_cons.1 h
    · cases heq
      exact if_pos rfl
    · have hne : l ≠ k := fun hlk => hk (List.mem_map.2 ⟨_, hmem, hlk⟩)
      rw [if_neg hne, ih hrest hmem]

/-- A label that waits at an operation stands for its address. -/
theorem mem_layout_of_waiting {l : Text} {waiting : List Text} (here : Nat) (op : AsmOp) (ls : List AsmLine)
    {label : Option Text} (hl : l ∈ waiting ++ label.toList) :
    (l, here) ∈ (layout here waiting (.line label (some op) :: ls)).2 := by
  rw [layout]
  exact List.mem_append_left _ (List.mem_map_of_mem hl)

/-- Lines without label and operation change no address. -/
theorem layout_blank_lines (here : Nat) (waiting : List Text) (k : Nat) (ls : List AsmLine) :
    layout here waiting (List.replicate k (.line none none) ++ ls) = layout here waiting ls := by
  induction k with
  | zero => rfl
  | succ k ih =>
    rw [List.replicate_succ, List.cons_append, layout, Option.toList_none, List.append_nil, ih]

/-- Settles O8: an operand in range is assembled into its field and one out of range into nothing; a label stands for
the address at which the operation after it is laid out. -/
theorem assemblerWords : Obligations.AssemblerWords := by
  intro labels here word
  refine ⟨rfl, rfl, rfl, rfl, asmWord_duty, asmWord_field encode_waitms_toNat,
    fun c n => asmWord_channel_bind (fun k => asmWord_field (encode_ocrw_toNat k) n) c,
    fun c v => asmWord_channel_bind (fun k => asmWord_bit (encode_enset_toNat k) v) c,
    asmWord_field encode_dirset_toNat, asmWord_field encode_jmp_toNat, fun l t h => ?_, fun l h => ?_,
    fun l t => mem_of_labelAddr, fun l t => labelAddr_of_mem, fun waiting l op k a ls => ⟨?_, ?_, ?_⟩⟩
  · change asmWord ((labelAddr labels l).bind _) = _
    rw [h]
    exact asmWord_field encode_jmp_toNat t
  · change asmWord ((labelAddr labels l).bind _) = _
    rw [h]
    rfl
  · exact mem_layout_of_waiting here op ls (by simp)
  · rw [List.cons_append, layout, layout_blank_lines]
    exact mem_layout_of_waiting here op ls (by simp)
  · rw [layout, layout]
    exact mem_layout_of_waiting a op ls (by simp)

end Sys2Proof.Machine
